-- ==== Sys2Proof/Word.lean ====
section
/-! DEFINITION. The word types of the CORE: widths are those of spec/00_scope.md R4 and R5. -/

namespace Sys2Proof

/-- A byte: the unit of memory and the width of a general register (R10, R17). -/
abbrev Byte := BitVec 8

/-- A 16-bit word: an instruction, `I`, `PC`, a stack slot (R12, R13, R15, R45). -/
abbrev Word := BitVec 16

/-- A register index field, `x` or `y`: 4 bits (R46). -/
abbrev Reg := BitVec 4

/-- The row count field `n`: 4 bits (R46). -/
abbrev Nibble := BitVec 4

/-- The address field `nnn`: 12 bits (R46). -/
abbrev Addr12 := BitVec 12

/-- An instant of the wall clock in seconds (R7, R126). DEDUCED: rational, see notes/assumptions/1.md. -/
abbrev Instant := Rat

end Sys2Proof
end

