-- ==== Sys2Proof/Syntax.lean ====
section
/-! DEFINITION. The instructions: one constructor for each row of spec/opcode_table.json, in the table's order
(spec/30_encoding.md R49): 34 instructions, `SYS nnn`, and the sentinel word. -/

namespace Sys2Proof

inductive Instr where
  /-- `CLS`, 00E0 (R105). -/
  | cls
  /-- `RET`, 00EE (R70). -/
  | ret
  /-- `JP nnn`, 1nnn (R71). -/
  | jp (nnn : Addr12)
  /-- `CALL nnn`, 2nnn (R73). -/
  | call (nnn : Addr12)
  /-- `SE Vx, kk`, 3xkk (R74). -/
  | seImm (x : Reg) (kk : Byte)
  /-- `SNE Vx, kk`, 4xkk (R75). -/
  | sneImm (x : Reg) (kk : Byte)
  /-- `SE Vx, Vy`, 5xy0 (R76). -/
  | seReg (x y : Reg)
  /-- `LD Vx, kk`, 6xkk (R81). -/
  | ldImm (x : Reg) (kk : Byte)
  /-- `ADD Vx, kk`, 7xkk (R82). -/
  | addImm (x : Reg) (kk : Byte)
  /-- `LD Vx, Vy`, 8xy0 (R83). -/
  | ldReg (x y : Reg)
  /-- `OR Vx, Vy`, 8xy1 (R84). -/
  | orReg (x y : Reg)
  /-- `AND Vx, Vy`, 8xy2 (R85). -/
  | andReg (x y : Reg)
  /-- `XOR Vx, Vy`, 8xy3 (R86). -/
  | xorReg (x y : Reg)
  /-- `ADD Vx, Vy`, 8xy4 (R87). -/
  | addReg (x y : Reg)
  /-- `SUB Vx, Vy`, 8xy5 (R88). -/
  | sub (x y : Reg)
  /-- `SHR Vx {, Vy}`, 8xy6 (R90). -/
  | shr (x y : Reg)
  /-- `SUBN Vx, Vy`, 8xy7 (R89). -/
  | subn (x y : Reg)
  /-- `SHL Vx {, Vy}`, 8xyE (R91). -/
  | shl (x y : Reg)
  /-- `SNE Vx, Vy`, 9xy0 (R77). -/
  | sneReg (x y : Reg)
  /-- `LD I, nnn`, Annn (R95). -/
  | ldI (nnn : Addr12)
  /-- `JP V0, nnn`, Bnnn (R72). -/
  | jpV0 (nnn : Addr12)
  /-- `RND Vx, kk`, Cxkk (R92). -/
  | rnd (x : Reg) (kk : Byte)
  /-- `DRW Vx, Vy, n`, Dxyn (R106). -/
  | drw (x y : Reg) (n : Nibble)
  /-- `SKP Vx`, Ex9E (R110). -/
  | skp (x : Reg)
  /-- `SKNP Vx`, ExA1 (R111). -/
  | sknp (x : Reg)
  /-- `LD Vx, DT`, Fx07 (R113). -/
  | ldVxDt (x : Reg)
  /-- `LD Vx, K`, Fx0A (R112). -/
  | ldVxK (x : Reg)
  /-- `LD DT, Vx`, Fx15 (R114). -/
  | ldDtVx (x : Reg)
  /-- `LD ST, Vx`, Fx18 (R115). -/
  | ldStVx (x : Reg)
  /-- `ADD I, Vx`, Fx1E (R96). -/
  | addI (x : Reg)
  /-- `LD F, Vx`, Fx29 (R97). -/
  | ldF (x : Reg)
  /-- `LD B, Vx`, Fx33 (R98). -/
  | ldB (x : Reg)
  /-- `LD [I], Vx`, Fx55 (R99). -/
  | storeRegs (x : Reg)
  /-- `LD Vx, [I]`, Fx65 (R100). -/
  | loadRegs (x : Reg)
  /-- `SYS nnn`, 0nnn with nnn not 000, 0E0, 0EE (R52, R63). -/
  | sys (nnn : Addr12)
  /-- The sentinel word 0000, "not a real opcode" (R50, R61). -/
  | sentinel
  deriving DecidableEq, Repr

end Sys2Proof
end

