-- ==== Sys2Proof/WellFormed.lean ====
section
/-! DEFINITION. Which terms of Instr are instructions: the operand types already have the field widths of
spec/30_encoding.md R46, so the one check left is R52's: `SYS` excludes the words 0000, 00E0 and 00EE. -/

namespace Sys2Proof

/-- `i` is the reading of some word (R49, R52). -/
def Instr.wellFormed (i : Instr) : Bool :=
  match i with
  | .sys nnn => nnn != 0x000#12 && nnn != 0x0E0#12 && nnn != 0x0EE#12
  | _ => true

end Sys2Proof
end

