-- ==== Sys2Proof/Decode.lean ====
section
/-! DEFINITION. Decoding and encoding of the 16-bit instruction word: the fields of spec/30_encoding.md R46, the
opcode map of R49, the rejected classes of R51. The positions of the fields and the opcode numbers are the spec's
own choice (decision D2, notes/assumptions/8.md), and so is exact matching (D3, notes/assumptions/9.md). -/

namespace Sys2Proof

/-- Why bytes are no row of the opcode table. The five classes are those of R51; R62 gives all of them one effect. -/
inductive Reject where
  /-- Fewer than two bytes were given (R45); the machine's fetch never does this. -/
  | truncated
  /-- `5xyN` with N not 0. -/
  | class5
  /-- `8xyN` with N in 8, 9, A, B, C, D, F. -/
  | class8
  /-- `9xyN` with N not 0. -/
  | class9
  /-- `ExKK` with KK not 9E, A1. -/
  | classE
  /-- `FxKK` with an unlisted KK. -/
  | classF
  deriving DecidableEq, Repr

/-- `op`, the top 4 bits (R46). -/
def fieldOp (w : Word) : BitVec 4 := w.extractLsb' 12 4

/-- `x` (R46). -/
def fieldX (w : Word) : Reg := w.extractLsb' 8 4

/-- `y` (R46). -/
def fieldY (w : Word) : Reg := w.extractLsb' 4 4

/-- `n` (R46). -/
def fieldN (w : Word) : Nibble := w.extractLsb' 0 4

/-- `kk` (R46). -/
def fieldKk (w : Word) : Byte := w.extractLsb' 0 8

/-- `nnn` (R46). -/
def fieldNnn (w : Word) : Addr12 := w.extractLsb' 0 12

/-- The high byte of a word, at the lower address (R32). -/
def hiByte (w : Word) : Byte := w.extractLsb' 8 8

/-- The low byte of a word, at the higher address (R32). -/
def loByte (w : Word) : Byte := w.extractLsb' 0 8

/-- Family 8: the bottom nibble selects the operation (R47, R49 rows 10 to 18). -/
def decode8 (x y : Reg) (n : Nibble) : Except Reject Instr :=
  match n with
  | 0x0#4 => .ok (.ldReg x y)
  | 0x1#4 => .ok (.orReg x y)
  | 0x2#4 => .ok (.andReg x y)
  | 0x3#4 => .ok (.xorReg x y)
  | 0x4#4 => .ok (.addReg x y)
  | 0x5#4 => .ok (.sub x y)
  | 0x6#4 => .ok (.shr x y)
  | 0x7#4 => .ok (.subn x y)
  | 0xE#4 => .ok (.shl x y)
  | _ => .error .class8

/-- Family E: the bottom byte selects the operation (R49 rows 24, 25). -/
def decodeE (x : Reg) (kk : Byte) : Except Reject Instr :=
  match kk with
  | 0x9E#8 => .ok (.skp x)
  | 0xA1#8 => .ok (.sknp x)
  | _ => .error .classE

/-- Family F: the bottom byte selects the operation (R49 rows 26 to 34). -/
def decodeF (x : Reg) (kk : Byte) : Except Reject Instr :=
  match kk with
  | 0x07#8 => .ok (.ldVxDt x)
  | 0x0A#8 => .ok (.ldVxK x)
  | 0x15#8 => .ok (.ldDtVx x)
  | 0x18#8 => .ok (.ldStVx x)
  | 0x1E#8 => .ok (.addI x)
  | 0x29#8 => .ok (.ldF x)
  | 0x33#8 => .ok (.ldB x)
  | 0x55#8 => .ok (.storeRegs x)
  | 0x65#8 => .ok (.loadRegs x)
  | _ => .error .classF

/-- Family 0: the sentinel, the two FIXED instructions, and `SYS` for the rest (R50, R52). -/
def decode0 (nnn : Addr12) : Instr :=
  match nnn with
  | 0x000#12 => .sentinel
  | 0x0E0#12 => .cls
  | 0x0EE#12 => .ret
  | _ => .sys nnn

/-- The instruction a word stands for, or the class of R51 it is rejected under (R49). -/
def decodeWord (w : Word) : Except Reject Instr :=
  match fieldOp w with
  | 0x0#4 => .ok (decode0 (fieldNnn w))
  | 0x1#4 => .ok (.jp (fieldNnn w))
  | 0x2#4 => .ok (.call (fieldNnn w))
  | 0x3#4 => .ok (.seImm (fieldX w) (fieldKk w))
  | 0x4#4 => .ok (.sneImm (fieldX w) (fieldKk w))
  | 0x5#4 => if fieldN w = 0x0#4 then .ok (.seReg (fieldX w) (fieldY w)) else .error .class5
  | 0x6#4 => .ok (.ldImm (fieldX w) (fieldKk w))
  | 0x7#4 => .ok (.addImm (fieldX w) (fieldKk w))
  | 0x8#4 => decode8 (fieldX w) (fieldY w) (fieldN w)
  | 0x9#4 => if fieldN w = 0x0#4 then .ok (.sneReg (fieldX w) (fieldY w)) else .error .class9
  | 0xA#4 => .ok (.ldI (fieldNnn w))
  | 0xB#4 => .ok (.jpV0 (fieldNnn w))
  | 0xC#4 => .ok (.rnd (fieldX w) (fieldKk w))
  | 0xD#4 => .ok (.drw (fieldX w) (fieldY w) (fieldN w))
  | 0xE#4 => decodeE (fieldX w) (fieldKk w)
  | _ => decodeF (fieldX w) (fieldKk w)

/-- The instruction at the front of a list of bytes, high byte first (R32, R45). Bytes after the first two are not read. -/
def decodeBytes (bs : List Byte) : Except Reject Instr :=
  match bs with
  | hi :: lo :: _ => decodeWord (hi ++ lo)
  | _ => .error .truncated

/-- Format NNN (R47). -/
def wordNnn (op : BitVec 4) (nnn : Addr12) : Word := op ++ nnn

/-- Format XKK, and format X with its selector byte (R47). -/
def wordXkk (op : BitVec 4) (x : Reg) (kk : Byte) : Word := (op ++ x) ++ kk

/-- Format XYN, and format XY with its selector nibble (R47). -/
def wordXyn (op : BitVec 4) (x y : Reg) (n : Nibble) : Word := (op ++ x) ++ (y ++ n)

/-- The word of an instruction (R49). -/
def encode (i : Instr) : Word :=
  match i with
  | .cls => 0x00E0#16
  | .ret => 0x00EE#16
  | .jp nnn => wordNnn 0x1#4 nnn
  | .call nnn => wordNnn 0x2#4 nnn
  | .seImm x kk => wordXkk 0x3#4 x kk
  | .sneImm x kk => wordXkk 0x4#4 x kk
  | .seReg x y => wordXyn 0x5#4 x y 0x0#4
  | .ldImm x kk => wordXkk 0x6#4 x kk
  | .addImm x kk => wordXkk 0x7#4 x kk
  | .ldReg x y => wordXyn 0x8#4 x y 0x0#4
  | .orReg x y => wordXyn 0x8#4 x y 0x1#4
  | .andReg x y => wordXyn 0x8#4 x y 0x2#4
  | .xorReg x y => wordXyn 0x8#4 x y 0x3#4
  | .addReg x y => wordXyn 0x8#4 x y 0x4#4
  | .sub x y => wordXyn 0x8#4 x y 0x5#4
  | .shr x y => wordXyn 0x8#4 x y 0x6#4
  | .subn x y => wordXyn 0x8#4 x y 0x7#4
  | .shl x y => wordXyn 0x8#4 x y 0xE#4
  | .sneReg x y => wordXyn 0x9#4 x y 0x0#4
  | .ldI nnn => wordNnn 0xA#4 nnn
  | .jpV0 nnn => wordNnn 0xB#4 nnn
  | .rnd x kk => wordXkk 0xC#4 x kk
  | .drw x y n => wordXyn 0xD#4 x y n
  | .skp x => wordXkk 0xE#4 x 0x9E#8
  | .sknp x => wordXkk 0xE#4 x 0xA1#8
  | .ldVxDt x => wordXkk 0xF#4 x 0x07#8
  | .ldVxK x => wordXkk 0xF#4 x 0x0A#8
  | .ldDtVx x => wordXkk 0xF#4 x 0x15#8
  | .ldStVx x => wordXkk 0xF#4 x 0x18#8
  | .addI x => wordXkk 0xF#4 x 0x1E#8
  | .ldF x => wordXkk 0xF#4 x 0x29#8
  | .ldB x => wordXkk 0xF#4 x 0x33#8
  | .storeRegs x => wordXkk 0xF#4 x 0x55#8
  | .loadRegs x => wordXkk 0xF#4 x 0x65#8
  | .sys nnn => wordNnn 0x0#4 nnn
  | .sentinel => 0x0000#16

/-- The bytes of an instruction, in ascending address order (R32). -/
def encodeBytes (i : Instr) : List Byte := [hiByte (encode i), loByte (encode i)]

/-- R49's opcode map as the spec prints it, rows 1 to 34: (match, mask). -/
def opcodeRows : List (Word × Word) :=
  [(0x00E0#16, 0xFFFF#16), (0x00EE#16, 0xFFFF#16), (0x1000#16, 0xF000#16), (0x2000#16, 0xF000#16),
   (0x3000#16, 0xF000#16), (0x4000#16, 0xF000#16), (0x5000#16, 0xF00F#16), (0x6000#16, 0xF000#16),
   (0x7000#16, 0xF000#16)] ++
  [(0x8000#16, 0xF00F#16), (0x8001#16, 0xF00F#16), (0x8002#16, 0xF00F#16), (0x8003#16, 0xF00F#16),
   (0x8004#16, 0xF00F#16), (0x8005#16, 0xF00F#16), (0x8006#16, 0xF00F#16), (0x8007#16, 0xF00F#16),
   (0x800E#16, 0xF00F#16)] ++
  [(0x9000#16, 0xF00F#16), (0xA000#16, 0xF000#16), (0xB000#16, 0xF000#16), (0xC000#16, 0xF000#16),
   (0xD000#16, 0xF000#16), (0xE09E#16, 0xF0FF#16), (0xE0A1#16, 0xF0FF#16), (0xF007#16, 0xF0FF#16),
   (0xF00A#16, 0xF0FF#16)] ++
  [(0xF015#16, 0xF0FF#16), (0xF018#16, 0xF0FF#16), (0xF01E#16, 0xF0FF#16), (0xF029#16, 0xF0FF#16),
   (0xF033#16, 0xF0FF#16), (0xF055#16, 0xF0FF#16), (0xF065#16, 0xF0FF#16)]

/-- The (match, mask) row an instruction belongs to (R49); `SYS` has match 0000 and mask F000, the sentinel mask FFFF. -/
def rowOf (i : Instr) : Word × Word :=
  match i with
  | .cls => (0x00E0#16, 0xFFFF#16)
  | .ret => (0x00EE#16, 0xFFFF#16)
  | .jp _ => (0x1000#16, 0xF000#16)
  | .call _ => (0x2000#16, 0xF000#16)
  | .seImm _ _ => (0x3000#16, 0xF000#16)
  | .sneImm _ _ => (0x4000#16, 0xF000#16)
  | .seReg _ _ => (0x5000#16, 0xF00F#16)
  | .ldImm _ _ => (0x6000#16, 0xF000#16)
  | .addImm _ _ => (0x7000#16, 0xF000#16)
  | .ldReg _ _ => (0x8000#16, 0xF00F#16)
  | .orReg _ _ => (0x8001#16, 0xF00F#16)
  | .andReg _ _ => (0x8002#16, 0xF00F#16)
  | .xorReg _ _ => (0x8003#16, 0xF00F#16)
  | .addReg _ _ => (0x8004#16, 0xF00F#16)
  | .sub _ _ => (0x8005#16, 0xF00F#16)
  | .shr _ _ => (0x8006#16, 0xF00F#16)
  | .subn _ _ => (0x8007#16, 0xF00F#16)
  | .shl _ _ => (0x800E#16, 0xF00F#16)
  | .sneReg _ _ => (0x9000#16, 0xF00F#16)
  | .ldI _ => (0xA000#16, 0xF000#16)
  | .jpV0 _ => (0xB000#16, 0xF000#16)
  | .rnd _ _ => (0xC000#16, 0xF000#16)
  | .drw _ _ _ => (0xD000#16, 0xF000#16)
  | .skp _ => (0xE09E#16, 0xF0FF#16)
  | .sknp _ => (0xE0A1#16, 0xF0FF#16)
  | .ldVxDt _ => (0xF007#16, 0xF0FF#16)
  | .ldVxK _ => (0xF00A#16, 0xF0FF#16)
  | .ldDtVx _ => (0xF015#16, 0xF0FF#16)
  | .ldStVx _ => (0xF018#16, 0xF0FF#16)
  | .addI _ => (0xF01E#16, 0xF0FF#16)
  | .ldF _ => (0xF029#16, 0xF0FF#16)
  | .ldB _ => (0xF033#16, 0xF0FF#16)
  | .storeRegs _ => (0xF055#16, 0xF0FF#16)
  | .loadRegs _ => (0xF065#16, 0xF0FF#16)
  | .sys _ => (0x0000#16, 0xF000#16)
  | .sentinel => (0x0000#16, 0xFFFF#16)

/-- The low `nbits` bits of `w` as an instruction word, every bit above `nbits` zero. -/
def tableWord (nbits w : Nat) : Word := BitVec.ofNat 16 (w % 2 ^ nbits)

/-- The host's question: the instruction the decoder reads from the table word `w` of `nbits` bits, laid out as memory
holds it, high byte first. -/
def decodeTableWord (nbits w : Nat) : Option Instr :=
  match decodeBytes [hiByte (tableWord nbits w), loByte (tableWord nbits w)] with
  | .ok i => some i
  | .error _ => none

end Sys2Proof
end

