-- ==== Sys2Proof/Config.lean ====
section
/-! DEFINITION. What an implementation fixes and what the environment supplies: the OPEN parameters of
spec/00_scope.md R4 and the free inputs of R7. None of these has a body, so no proof can see a value. -/

namespace Sys2Proof.Config

/-- `SHIFT_USES_VY` (R4, R20): OPEN. Only `State.reset` reads it; the running machine reads the field of State. -/
opaque shiftUsesVy : Bool

/-- `CLOCK_HZ` (R4, R21): OPEN, the initial clock rate before it is brought into the bounds. -/
opaque clockHzInit : Nat

/-- The "configurable upper bound" of the clock rate as configured (R4, R146): OPEN. -/
opaque clockHzLimit : Nat

/-- `TICK_SLEEP` (R4, R144): OPEN, in seconds. -/
opaque tickSleep : NNRat

/-- The wall-clock time that passes before sample `n` is taken: not negative, otherwise free (R7, R66, R148). -/
opaque elapsed : Nat → NNRat

/-- The 16 key states of sample `n`: free (R7, R132). -/
opaque keySample : Nat → Vector Bool 16

/-- The random byte of sample `n`: free (R7, R134). -/
opaque randSample : Nat → Byte

/-- The timer instants (`DTt0`, `STt0`) that an initialisation at sample `n` leaves: free (R24, U19). -/
opaque initAnchors : Nat → Instant × Instant

end Sys2Proof.Config
end

