-- ==== Sys2Proof/Machine/State.lean ====
section
/-! DEFINITION. The machine's state as plain data: every piece spec/10_state.md gives (R10 to R21), the samples of
spec/00_scope.md R7, the driver of R21 and spec/70_reset_and_hazards.md, and the outputs of R7. Listed with reset
values in INVENTORY.md. -/

namespace Sys2Proof.Machine

/-- The hardware raises no fault of any kind (spec/60_exceptions.md R120, R123), so there is no fault reason: nothing
raises one. Safe: a machine that cannot fault allows no claim that rests on a fault. -/
inductive Fault where
  deriving DecidableEq, Repr

/-- Why a step has no meaning. -/
inductive Refusal where
  /-- An instruction with no meaning yet; `exec`'s arms alone may raise it, and none does now. Safe: the machine stops. -/
  | notModelled (mnemonic : String)
  deriving DecidableEq, Repr

/-- The driver's run states (R138). -/
inductive RunState where
  | idle
  | running
  deriving DecidableEq, Repr

/-- The machine status output (R21, R112). -/
inductive Status where
  | normal
  | waitingForKey
  deriving DecidableEq, Repr

/-- The outcome of an instruction step (R8). -/
inductive StepOutcome where
  | executed
  | noInstruction
  | ignored
  | waiting
  deriving DecidableEq, Repr

/-- An audio edge (R130): false to true starts the looped tone, true to false stops it. -/
inductive AudioEdge where
  | start
  | stop
  deriving DecidableEq, Repr

/-- The answer of a program load to its caller (R142). -/
inductive LoadReport where
  | success
  | failure
  deriving DecidableEq, Repr

/-- One move of the world outside the driver's thread, between two steps (R41, R121). -/
inductive HostMove where
  /-- The host does nothing and the machine takes one step. -/
  | pass
  /-- The driver enters Running (R138, D24). -/
  | start
  /-- A reset request (R141). -/
  | requestReset
  /-- A program load (R142); `none` is a stream that cannot be read in full. -/
  | load (stream : Option (List Byte))
  /-- A clock-rate set (R146). -/
  | setClock (hz : Int)
  /-- Single-step enable or disable (R137). -/
  | setSingleStep (on : Bool)
  /-- The single-step request pulse (R137). -/
  | requestStep
  /-- The shutdown flag is set (R138). -/
  | shutdown
  /-- The renderer takes a copy of the display (R133). -/
  | copyDisplay
  deriving DecidableEq, Repr

/-- Memory as its listed cells (R17): ascending addresses, no cell equal to its initial contents. -/
abbrev Memory := List Host.Cell

/-- The display grid (R18): 32 rows of 64 pixels, `true` is on. -/
abbrev Display := Vector (Vector Bool 64) 32

/-- The debug snapshot as data (R136): all registers, the stack, the keypad and the current instruction, `none` for an
unrecognized word. Its text format is out of scope (R3). -/
structure Snapshot where
  v : Vector Byte 16
  i : Word
  pc : Word
  sp : Byte
  stack : Vector Word 16
  dtSet : Byte
  dtT0 : Instant
  stSet : Byte
  stT0 : Instant
  keys : Vector Bool 16
  instr : Option Instr
  deriving DecidableEq, Repr

structure State where
  /-- The general registers `V[0]`..`V[15]` (R10); `V[15]` is the flag register (R11). -/
  v : Vector Byte 16
  /-- The address register `I` (R12). -/
  i : Word
  /-- The program counter `PC` (R13). -/
  pc : Word
  /-- The stack pointer `SP` (R14). -/
  sp : Byte
  /-- The return stack (R15). -/
  stack : Vector Word 16
  /-- `DTset` (R16). -/
  dtSet : Byte
  /-- `DTt0` (R16). -/
  dtT0 : Instant
  /-- `STset` (R16). -/
  stSet : Byte
  /-- `STt0` (R16). -/
  stT0 : Instant
  /-- `mem` (R17). -/
  mem : Memory
  /-- `disp` (R18). -/
  disp : Display
  /-- The stored key states (R19); the sample `Key(k)` of the current step (R66). -/
  keys : Vector Bool 16
  /-- `SHIFT_USES_VY` (R20): fixed at initialisation. -/
  shiftUsesVy : Bool
  /-- The latest sample of `Now()` (R7, R66). -/
  now : Instant
  /-- The sample `Rand()` of the current step (R7, R66). -/
  rand : Byte
  /-- The model's own counter of samples taken, the argument of the free values of Config. -/
  envCount : Nat
  /-- `run_state` (R21, R138). -/
  runState : RunState
  /-- `reset_pending` (R21, R141). -/
  resetPending : Bool
  /-- `clock_hz` (R21, R146). -/
  clockHz : Nat
  /-- `single_step_en` (R21, R137). -/
  singleStepEn : Bool
  /-- `single_step_req` (R21, R137). -/
  singleStepReq : Bool
  /-- `shutdown` (R21, R138). -/
  shutdown : Bool
  /-- `last_instr_tick` (R21, R145). -/
  lastInstrTick : Instant
  /-- Instruction steps left of the current tick's budget (R144). -/
  budget : Nat
  /-- `audio_on` (R21, R130). -/
  audioOn : Bool
  /-- The edge the latest tick emitted (R130). -/
  audioEdge : Option AudioEdge
  /-- `status` (R21, R112). -/
  status : Status
  /-- The outcome of the latest instruction step (R8). -/
  outcome : Option StepOutcome
  /-- The latest debug snapshot (R136). -/
  snapshot : Option Snapshot
  /-- What the world outside does next (R41, R121): the model's own field. -/
  hostQueue : List HostMove
  /-- The answer of the latest program load (R142). -/
  loadReport : Option LoadReport
  /-- The copy of the display the renderer took last (R133). -/
  frame : Option Display
  deriving DecidableEq, Repr

/-- A step's result. -/
abbrev Result := Host.Outcome State Fault Refusal

/-- All 2048 pixels off (R18, R24). -/
def Display.off : Display := Vector.replicate 32 (Vector.replicate 64 false)

/-- The upper bound `CLOCK_HZ_MAX` of the clock rate (R4, R146), never below `CLOCK_HZ_MIN` = 1. -/
def clockHzMax : Nat := max 1 Config.clockHzLimit

/-- The machine right after reset, before the host has done anything (R21, R24): Machine State as `Init` leaves it and the
driver in Idle. Values the spec does not give are named in notes/assumptions/2.md to 6.md, 17.md, 24.md and 25.md. -/
def State.reset : State where
  v := Vector.replicate 16 0x00#8
  i := 0x0000#16
  pc := 0x0200#16
  sp := 0x00#8
  stack := Vector.replicate 16 0x0000#16
  dtSet := 0x00#8
  dtT0 := 0
  stSet := 0x00#8
  stT0 := 0
  mem := []
  disp := Display.off
  keys := Vector.replicate 16 false
  shiftUsesVy := Config.shiftUsesVy
  now := 0
  rand := 0x00#8
  envCount := 0
  runState := .idle
  resetPending := false
  clockHz := min clockHzMax (max 1 Config.clockHzInit)
  singleStepEn := false
  singleStepReq := false
  shutdown := false
  lastInstrTick := 0
  budget := 0
  audioOn := false
  audioEdge := none
  status := .normal
  outcome := none
  snapshot := none
  hostQueue := []
  loadReport := none
  frame := none

end Sys2Proof.Machine
end

