-- ==== Sys2Proof/Machine/Font.lean ====
section
/-! DEFINITION. The font and the initial contents of memory (spec/20_memory.md R35, spec/10_state.md R24). The base
address and the glyph bytes are the spec's own defaults (decisions D13, D14; notes/assumptions/7.md). -/

namespace Sys2Proof.Machine

/-- `FONT_BASE` (R4, R35). -/
def fontBase : Nat := 0x100

/-- `FONT_GLYPH_BYTES` (R4). -/
def glyphBytes : Nat := 5

/-- `FONT_TABLE`, 16 glyphs of 5 bytes (R35). -/
def fontTable : List Byte :=
  [0xF0#8, 0x90#8, 0x90#8, 0x90#8, 0xF0#8, 0x20#8, 0x60#8, 0x20#8, 0x20#8, 0x70#8] ++
  [0xF0#8, 0x10#8, 0xF0#8, 0x80#8, 0xF0#8, 0xF0#8, 0x10#8, 0xF0#8, 0x10#8, 0xF0#8] ++
  [0x90#8, 0x90#8, 0xF0#8, 0x10#8, 0x10#8, 0xF0#8, 0x80#8, 0xF0#8, 0x10#8, 0xF0#8] ++
  [0xF0#8, 0x80#8, 0xF0#8, 0x90#8, 0xF0#8, 0xF0#8, 0x10#8, 0x20#8, 0x40#8, 0x40#8] ++
  [0xF0#8, 0x90#8, 0xF0#8, 0x90#8, 0xF0#8, 0xF0#8, 0x90#8, 0xF0#8, 0x10#8, 0xF0#8] ++
  [0xF0#8, 0x90#8, 0xF0#8, 0x90#8, 0x90#8, 0xE0#8, 0x90#8, 0xE0#8, 0x90#8, 0xE0#8] ++
  [0xF0#8, 0x80#8, 0x80#8, 0x80#8, 0xF0#8, 0xE0#8, 0x90#8, 0x90#8, 0x90#8, 0xE0#8] ++
  [0xF0#8, 0x80#8, 0xF0#8, 0x80#8, 0xF0#8, 0xF0#8, 0x80#8, 0xF0#8, 0x80#8, 0x80#8]

/-- The initial contents of memory (R24, R140): the font table from `FONT_BASE` on, 0 elsewhere. -/
def initialByte (a : Nat) : Byte :=
  if fontBase ≤ a then fontTable.getD (a - fontBase) 0x00#8 else 0x00#8

end Sys2Proof.Machine
end

