-- ==== Sys2Proof/Machine/Ops.lean ====
section
/-! DEFINITION. The named operations over memory, registers, stack and display, the two ways an instruction ends, and
the fetch. There is no operation that takes an exception and none that returns from one: the hardware has neither
(spec/60_exceptions.md R120, R123, R124). -/

namespace Sys2Proof.Machine

/-! ### Memory (spec/20_memory.md) -/

/-- The masked address of every access (R31). -/
def maskAddr (a : Word) : Nat := a.toNat % 4096

/-- The byte at an address: the listed one, else the initial contents. -/
def readByte (m : Memory) (a : Nat) : Byte :=
  match m with
  | [] => initialByte a
  | c :: rest => if c.1 = a then c.2 else readByte rest a

/-- `m` with no cell listed at `a`. -/
def eraseByte (m : Memory) (a : Nat) : Memory := m.filter (fun c => c.1 ≠ a)

/-- `m` with the cell `(a, b)` listed before the first greater address. -/
def insertByte (m : Memory) (a : Nat) (b : Byte) : Memory :=
  match m with
  | [] => [(a, b)]
  | c :: rest => if a < c.1 then (a, b) :: c :: rest else c :: insertByte rest a b

/-- Writing a byte. Writing the initial contents unlists the cell, so that equal memories are equal lists. -/
def writeByte (m : Memory) (a : Nat) (b : Byte) : Memory :=
  if b = initialByte a then eraseByte m a else insertByte (eraseByte m a) a b

/-- Bytes written at ascending addresses from `a` on, each address masked for itself (R31). -/
def writeBytes (m : Memory) (a : Word) (bs : List Byte) : Memory :=
  match bs with
  | [] => m
  | b :: rest => writeBytes (writeByte m (maskAddr a) b) (a + 1#16) rest

/-- The canonical form of memory: addresses strictly rise and lie in the 4096 bytes of R30, and no cell equals its
initial contents. -/
abbrev Memory.wf (m : Memory) : Prop :=
  m.Pairwise (fun c d => c.1 < d.1) ∧ ∀ c ∈ m, c.1 < 4096 ∧ c.2 ≠ initialByte c.1

/-- `MemRead(a, 1)` (R6, R31). -/
def State.memRead (s : State) (a : Word) : Byte := readByte s.mem (maskAddr a)

/-- `MemWrite(a + k, 1, b_k)` for the bytes `b_0`, `b_1`, ... in ascending order (R6, R31, R34). -/
def State.memWrite (s : State) (a : Word) (bs : List Byte) : State := { s with mem := writeBytes s.mem a bs }

/-! ### Registers and stack (spec/10_state.md) -/

/-- `V[x]` (R10). -/
def State.getV (s : State) (x : Reg) : Byte := s.v[x.toNat]'(x.isLt)

/-- `V[x] <- b` (R10): one bank, no register is hard-wired. -/
def State.setV (s : State) (x : Reg) (b : Byte) : State := { s with v := s.v.set x.toNat b x.isLt }

/-- `I <- a` (R12). -/
def State.setI (s : State) (a : Word) : State := { s with i := a }

/-- `PC <- a` (R13). -/
def State.setPc (s : State) (a : Word) : State := { s with pc := a }

/-- The slot `SP mod 16` (R14; decision D7). -/
def stackSlot (sp : Byte) : Nat := sp.toNat % 16

/-- `stack[SP mod 16]` (R15). -/
def State.stackTop (s : State) : Word := s.stack[stackSlot s.sp]'(Nat.mod_lt _ (by decide))

/-- `SP <- SP + 1`, then `stack[SP mod 16] <- a` (R73). -/
def State.push (s : State) (a : Word) : State :=
  { s with sp := s.sp + 1#8, stack := s.stack.set (stackSlot (s.sp + 1#8)) a (Nat.mod_lt _ (by decide)) }

/-- `PC <- stack[SP mod 16]`, then `SP <- SP - 1` (R70, `SP` not 0). -/
def State.pop (s : State) : State := { s with pc := s.stackTop, sp := s.sp - 1#8 }

/-- Both anchors of the delay timer at once (R127). -/
def State.setDt (s : State) (b : Byte) : State := { s with dtSet := b, dtT0 := s.now }

/-- Both anchors of the sound timer at once (R127). -/
def State.setSt (s : State) (b : Byte) : State := { s with stSet := b, stT0 := s.now }

/-- `Key(k)` as this step sampled it (R6, R66). -/
def State.keyDown (s : State) (k : Reg) : Bool := s.keys[k.toNat]'(k.isLt)

/-! ### Display (spec/10_state.md R18) -/

/-- `disp(cx, cy)`. -/
def pixel (d : Display) (cx : Fin 64) (cy : Fin 32) : Bool := (d[cy.val]'(cy.isLt))[cx.val]'(cx.isLt)

/-- `disp(cx, cy) <- NOT disp(cx, cy)`. -/
def togglePixel (d : Display) (cx : Fin 64) (cy : Fin 32) : Display :=
  d.set cy.val ((d[cy.val]'(cy.isLt)).set cx.val (!pixel d cx cy) cx.isLt) cy.isLt

/-- The display replaced (R18): CLS, DRW and initialisation only. -/
def State.setDisp (s : State) (d : Display) : State := { s with disp := d }

/-! ### The end of an instruction (spec/00_scope.md R8, spec/40_fetch_decode_execute.md R64) -/

/-- The status output after an outcome (R112). -/
def statusAfter (o : StepOutcome) : Status :=
  match o with
  | .waiting => .waitingForKey
  | .executed => .normal
  | .noInstruction => .normal
  | .ignored => .normal

/-- The instruction step ends with outcome `o` (R8). -/
def State.ended (s : State) (o : StepOutcome) : State := { s with outcome := some o, status := statusAfter o }

/-- The end of an instruction whose `PC` stands as the instruction left it. -/
def finish (o : StepOutcome) (s : State) : Result := .next (s.ended o)

/-- The end of a straight-line instruction: `PC <- PC + 2` (R64). -/
def straight (s : State) : Result := finish .executed (s.setPc (s.pc + 2#16))

/-- The end of a skip: `PC <- PC + 4` if the condition holds, else `PC + 2` (R64). -/
def skipIf (c : Bool) (s : State) : Result := finish .executed (s.setPc (s.pc + if c then 4#16 else 2#16))

/-- An unrecognized word: nothing changes, outcome `Ignored` (R62). -/
def ignoreWord (s : State) : Result := finish .ignored s

/-! ### Fetch (R45, R60) -/

/-- The bytes at `PC` and `PC + 1` (R32, R33). -/
def State.fetchBytes (s : State) : List Byte := [s.memRead s.pc, s.memRead (s.pc + 1#16)]

/-- The fetched word, big-endian (R45). -/
def State.fetchWord (s : State) : Word := s.memRead s.pc ++ s.memRead (s.pc + 1#16)

/-- Fetch and decode (R60): the sentinel test comes with the decoding, since the word 0000 decodes to the sentinel. -/
def State.fetchDecode (s : State) : Except Reject Instr := decodeBytes s.fetchBytes

/-- `s` with the word `w` stored where the fetch reads. -/
def State.withWord (s : State) (w : Word) : State := s.memWrite s.pc [hiByte w, loByte w]

end Sys2Proof.Machine
end

