-- ==== Sys2Proof/Machine/Operands.lean ====
section
/-! DEFINITION. The operand forms (spec/30_encoding.md R48, spec/43_address_memory.md R101). -/

namespace Sys2Proof.Machine

/-- `zext_16(nnn)`: an absolute byte address (R48). -/
def addrOperand (nnn : Addr12) : Word := nnn.setWidth 16

/-- `zext_16(V[x])`. -/
def State.wideV (s : State) (x : Reg) : Word := (s.getV x).setWidth 16

/-- The address `I + k` of data byte `k`; the access masks it (R101, R31). -/
def State.dataAddr (s : State) (k : Nat) : Word := s.i + BitVec.ofNat 16 k

/-- The byte `MemRead(I + k, 1)`. -/
def State.dataByte (s : State) (k : Nat) : Byte := s.memRead (s.dataAddr k)

/-- The operand of the two shifts: `V[y]` if SHIFT_USES_VY, else `V[x]` (R20, R90, R91). -/
def State.shiftOperand (s : State) (x y : Reg) : Byte := if s.shiftUsesVy then s.getV y else s.getV x

/-- The key index `V[x] AND 0x0F` (R110; decision D11, notes/assumptions/13.md). -/
def State.keyIndex (s : State) (x : Reg) : Reg := (s.getV x).setWidth 4

/-- The 16 key indices in ascending order (R112). -/
def keyIndices : List Reg := (List.range 16).map (BitVec.ofNat 4)

/-- The least pressed key, if any key is pressed (R112). -/
def State.lowestKey (s : State) : Option Reg := keyIndices.find? s.keyDown

/-- Hundreds, tens and ones of a byte (R98). -/
def bcdDigits (b : Byte) : List Byte :=
  [BitVec.ofNat 8 (b.toNat / 100), BitVec.ofNat 8 (b.toNat / 10 % 10), BitVec.ofNat 8 (b.toNat % 10)]

/-- The registers `V[0]`..`V[x]`, `V[0]` first (R99). -/
def State.regRange (s : State) (x : Reg) : List Byte := s.v.toList.take (x.toNat + 1)

/-- `V[k] <- MemRead(I + k, 1)` for the first `count` registers, ascending (R100). -/
def State.loadFirst (s : State) (count : Nat) : State :=
  match count with
  | 0 => s
  | k + 1 => (s.loadFirst k).setV (BitVec.ofNat 4 k) (s.dataByte k)

/-- The font address of the digit `V[x]`, the whole byte (R97; decision D12, notes/assumptions/13.md). -/
def State.fontAddr (s : State) (x : Reg) : Word := BitVec.ofNat 16 (fontBase + glyphBytes * (s.getV x).toNat)

end Sys2Proof.Machine
end

