-- ==== Sys2Proof/Machine/AddressMemory.lean ====
section
/-! DEFINITION. Address-register and memory instructions (spec/43_address_memory.md R95 to R100). All are
straight-line; none writes `VF` as a flag, and only the three that name `I` as destination write it. -/

namespace Sys2Proof.Machine

/-- `LD I, nnn` (R95). -/
def execLdI (nnn : Addr12) (s : State) : Result := straight (s.setI (addrOperand nnn))

/-- `ADD I, Vx` (R96): modulo 2^16, no flag. -/
def execAddI (x : Reg) (s : State) : Result := straight (s.setI (s.i + s.wideV x))

/-- `LD F, Vx` (R97). -/
def execLdF (x : Reg) (s : State) : Result := straight (s.setI (s.fontAddr x))

/-- `LD B, Vx` (R98). -/
def execLdB (x : Reg) (s : State) : Result := straight (s.memWrite s.i (bcdDigits (s.getV x)))

/-- `LD [I], Vx` (R99): `I` unchanged. -/
def execStoreRegs (x : Reg) (s : State) : Result := straight (s.memWrite s.i (s.regRange x))

/-- `LD Vx, [I]` (R100): `I` unchanged. -/
def execLoadRegs (x : Reg) (s : State) : Result := straight (s.loadFirst (x.toNat + 1))

end Sys2Proof.Machine
end

