-- ==== Sys2Proof/Machine/ControlFlow.lean ====
section
/-! DEFINITION. Control-transfer instructions (spec/41_control_flow.md R70 to R78). -/

namespace Sys2Proof.Machine

/-- `RET` (R70): with an empty stack nothing changes, `PC` included (decision D8, notes/assumptions/11.md). -/
def execRet (s : State) : Result := finish .executed (if s.sp = 0x00#8 then s else s.pop)

/-- `JP nnn` (R71). -/
def execJp (nnn : Addr12) (s : State) : Result := finish .executed (s.setPc (addrOperand nnn))

/-- `JP V0, nnn` (R72): the sum is not masked. -/
def execJpV0 (nnn : Addr12) (s : State) : Result :=
  finish .executed (s.setPc (addrOperand nnn + s.wideV 0x0#4))

/-- `CALL nnn` (R73): `SP` is incremented before the push, and there is no overflow check. -/
def execCall (nnn : Addr12) (s : State) : Result :=
  finish .executed ((s.push (s.pc + 2#16)).setPc (addrOperand nnn))

/-- `SE Vx, kk` (R74). -/
def execSeImm (x : Reg) (kk : Byte) (s : State) : Result := skipIf (s.getV x == kk) s

/-- `SNE Vx, kk` (R75). -/
def execSneImm (x : Reg) (kk : Byte) (s : State) : Result := skipIf (s.getV x != kk) s

/-- `SE Vx, Vy` (R76). -/
def execSeReg (x y : Reg) (s : State) : Result := skipIf (s.getV x == s.getV y) s

/-- `SNE Vx, Vy` (R77). -/
def execSneReg (x y : Reg) (s : State) : Result := skipIf (s.getV x != s.getV y) s

end Sys2Proof.Machine
end

