-- ==== Sys2Proof/Machine/Flags.lean ====
section
/-! DEFINITION. The values `VF` receives as a flag (spec/10_state.md R11, spec/42_load_alu.md R80). -/

namespace Sys2Proof.Machine

/-- A flag is exactly 0 or 1 (R11). -/
def flagByte (c : Bool) : Byte := if c then 0x01#8 else 0x00#8

/-- Carry: 1 iff the sum of the two bytes exceeds 255 (R80, R87). -/
def carryFlag (a b : Byte) : Byte := flagByte (decide (255 < a.toNat + b.toNat))

/-- Subtraction flag: 1 iff minuend > subtrahend, strictly (R80, R88, R89). -/
def borrowFlag (minuend subtrahend : Byte) : Byte := flagByte (decide (subtrahend.toNat < minuend.toNat))

/-- The bit a right shift moves out (R90). -/
def shrFlag (a : Byte) : Byte := flagByte (a.getLsbD 0)

/-- The bit a left shift moves out (R91). -/
def shlFlag (a : Byte) : Byte := flagByte (a.getLsbD 7)

/-- The collision flag (R106). -/
def collisionFlag (hit : Bool) : Byte := flagByte hit

/-- `VF <- flag`, then `V[x] <- result`: with `x` = 15 the result wins (R65; decision D9, notes/assumptions/12.md). -/
def State.setFlagThenV (s : State) (x : Reg) (flag result : Byte) : State := (s.setV 0xF#4 flag).setV x result

end Sys2Proof.Machine
end

