-- ==== Sys2Proof/Machine/Display.lean ====
section
/-! DEFINITION. Display instructions (spec/44_display.md R105, R106). One step of the model is one whole CLS or DRW, as
the display lock makes it (R107, notes/assumptions/23.md). -/

namespace Sys2Proof.Machine

/-- `CLS` (R105). -/
def execCls (s : State) : Result := straight (s.setDisp Display.off)

/-- Sprite pixel `c` of row `r` is set: the display so far and whether any pixel went from on to off so far (R106).
Both axes wrap independently. -/
def drawPixel (px py r c : Nat) (acc : Display × Bool) : Display × Bool :=
  (togglePixel acc.1 (Fin.ofNat 64 (px + c)) (Fin.ofNat 32 (py + r)),
   acc.2 || pixel acc.1 (Fin.ofNat 64 (px + c)) (Fin.ofNat 32 (py + r)))

/-- The first `cols` pixels of sprite row `r`, whose byte is `b`, most significant bit first (R106). -/
def drawRow (b : Byte) (px py r : Nat) (cols : Nat) (acc : Display × Bool) : Display × Bool :=
  match cols with
  | 0 => acc
  | c + 1 =>
    if b.getLsbD (7 - c) then drawPixel px py r c (drawRow b px py r c acc) else drawRow b px py r c acc

/-- The first `rows` rows of the sprite at `I`, drawn at (`px`, `py`) (R106). -/
def State.drawRows (s : State) (px py : Nat) (rows : Nat) : Display × Bool :=
  match rows with
  | 0 => (s.disp, false)
  | r + 1 => drawRow (s.dataByte r) px py r 8 (s.drawRows px py r)

/-- The sprite of `DRW Vx, Vy, n`: the coordinates are the old registers (R106; decision D27). -/
def State.drawSprite (s : State) (x y : Reg) (n : Nibble) : Display × Bool :=
  s.drawRows (s.getV x).toNat (s.getV y).toNat n.toNat

/-- `DRW Vx, Vy, n` (R106). -/
def execDrw (x y : Reg) (n : Nibble) (s : State) : Result :=
  straight ((s.setDisp (s.drawSprite x y n).1).setV 0xF#4 (collisionFlag (s.drawSprite x y n).2))

end Sys2Proof.Machine
end

