-- ==== Sys2Proof/Machine/Timers.lean ====
section
/-! DEFINITION. The timer value function and the audio level (spec/60_exceptions.md R126, R130). -/

namespace Sys2Proof.Machine

/-- `value(set, t0, t) = max(0, set - floor(60 * (t - t0)))` (R126), for `t` not before `t0`. The subtraction of natural
numbers is the `max`. For `t` before `t0`, outside the rule, it is `set` (notes/assumptions/28.md). -/
def timerValue (set : Byte) (t0 t : Instant) : Byte := BitVec.ofNat 8 (set.toNat - ⌊60 * (t - t0)⌋₊)

/-- `DT(Now())` (R126). -/
def State.delayTimer (s : State) : Byte := timerValue s.dtSet s.dtT0 s.now

/-- `ST(Now())` (R126). -/
def State.soundTimer (s : State) : Byte := timerValue s.stSet s.stT0 s.now

/-- The audio level `ST(Now()) > 0` (R130). -/
def State.audioLevel (s : State) : Bool := decide (0 < s.soundTimer.toNat)

end Sys2Proof.Machine
end

