-- ==== Sys2Proof/Machine/KeypadTimers.lean ====
section
/-! DEFINITION. Keypad and timer instructions (spec/45_keypad_timers.md R110 to R115). Keys and the clock are this
step's samples (R66), held in State. -/

namespace Sys2Proof.Machine

/-- `SKP Vx` (R110). -/
def execSkp (x : Reg) (s : State) : Result := skipIf (s.keyDown (s.keyIndex x)) s

/-- `SKNP Vx` (R111). -/
def execSknp (x : Reg) (s : State) : Result := skipIf (!s.keyDown (s.keyIndex x)) s

/-- The state after `LD Vx, K` (R112): the least pressed key is stored, or nothing changes. -/
def State.afterWaitKey (s : State) (x : Reg) : State :=
  match s.lowestKey with
  | some k => ((s.setV x (k.setWidth 8)).setPc (s.pc + 2#16)).ended .executed
  | none => s.ended .waiting

/-- `LD Vx, K` (R112). -/
def execLdVxK (x : Reg) (s : State) : Result := .next (s.afterWaitKey x)

/-- `LD Vx, DT` (R113): the value at this step's `Now()`; the anchors stand. -/
def execLdVxDt (x : Reg) (s : State) : Result := straight (s.setV x s.delayTimer)

/-- `LD DT, Vx` (R114). -/
def execLdDtVx (x : Reg) (s : State) : Result := straight (s.setDt (s.getV x))

/-- `LD ST, Vx` (R115). -/
def execLdStVx (x : Reg) (s : State) : Result := straight (s.setSt (s.getV x))

end Sys2Proof.Machine
end

