-- ==== Sys2Proof/Machine/LoadAlu.lean ====
section
/-! DEFINITION. Register load and ALU instructions (spec/42_load_alu.md R80 to R92). All are straight-line. -/

namespace Sys2Proof.Machine

/-- `LD Vx, kk` (R81). -/
def execLdImm (x : Reg) (kk : Byte) (s : State) : Result := straight (s.setV x kk)

/-- `ADD Vx, kk` (R82): modulo 256, no flag. -/
def execAddImm (x : Reg) (kk : Byte) (s : State) : Result := straight (s.setV x (s.getV x + kk))

/-- `LD Vx, Vy` (R83). -/
def execLdReg (x y : Reg) (s : State) : Result := straight (s.setV x (s.getV y))

/-- `OR Vx, Vy` (R84): no flag. -/
def execOrReg (x y : Reg) (s : State) : Result := straight (s.setV x (s.getV x ||| s.getV y))

/-- `AND Vx, Vy` (R85): no flag. -/
def execAndReg (x y : Reg) (s : State) : Result := straight (s.setV x (s.getV x &&& s.getV y))

/-- `XOR Vx, Vy` (R86): no flag. -/
def execXorReg (x y : Reg) (s : State) : Result := straight (s.setV x (s.getV x ^^^ s.getV y))

/-- `ADD Vx, Vy` (R87). -/
def execAddReg (x y : Reg) (s : State) : Result :=
  straight (s.setFlagThenV x (carryFlag (s.getV x) (s.getV y)) (s.getV x + s.getV y))

/-- `SUB Vx, Vy` (R88): minuend `V[x]`, subtrahend `V[y]`. -/
def execSub (x y : Reg) (s : State) : Result :=
  straight (s.setFlagThenV x (borrowFlag (s.getV x) (s.getV y)) (s.getV x - s.getV y))

/-- `SUBN Vx, Vy` (R89): minuend `V[y]`, subtrahend `V[x]`. -/
def execSubn (x y : Reg) (s : State) : Result :=
  straight (s.setFlagThenV x (borrowFlag (s.getV y) (s.getV x)) (s.getV y - s.getV x))

/-- `SHR Vx {, Vy}` (R90): logical, by one. -/
def execShr (x y : Reg) (s : State) : Result :=
  straight (s.setFlagThenV x (shrFlag (s.shiftOperand x y)) (s.shiftOperand x y >>> 1))

/-- `SHL Vx {, Vy}` (R91): by one. -/
def execShl (x y : Reg) (s : State) : Result :=
  straight (s.setFlagThenV x (shlFlag (s.shiftOperand x y)) (s.shiftOperand x y <<< 1))

/-- `RND Vx, kk` (R92): `Rand()` is this step's sample. -/
def execRnd (x : Reg) (kk : Byte) (s : State) : Result := straight (s.setV x (s.rand &&& kk))

end Sys2Proof.Machine
end

