-- ==== Sys2Proof/Machine/NoEffect.lean ====
section
/-! DEFINITION. The two rows of the table that are no instructions of the source: `SYS nnn` and the sentinel
(spec/40_fetch_decode_execute.md R61, R63). -/

namespace Sys2Proof.Machine

/-- `SYS nnn` (R63): as an unrecognized word (decision D4, notes/assumptions/9.md). -/
def execSys (_nnn : Addr12) (s : State) : Result := ignoreWord s

/-- The sentinel word (R61): nothing changes; the driver ends the tick's budget on this outcome (R144). -/
def execSentinel (s : State) : Result := finish .noInstruction s

end Sys2Proof.Machine
end

