-- ==== Sys2Proof/Machine/Driver.lean ====
section
/-! DEFINITION. The host-side sequencer: initialisation and load (spec/70_reset_and_hazards.md R140 to R142), the tick
(R144 to R146), what surrounds one instruction step (R60, R144), the moves of the host (R41, R121). -/

namespace Sys2Proof.Machine

/-! ### Samples (R7, R66) -/

/-- Time passes and `Now()` is sampled: it never falls (R66). -/
def State.sampleNow (s : State) : State :=
  { s with now := s.now + (Config.elapsed s.envCount).val, envCount := s.envCount + 1 }

/-- The samples of one instruction step: `Now()`, `Key(0..15)`, `Rand()` (R60, R66). -/
def State.sampleStep (s : State) : State :=
  { s with
    now := s.now + (Config.elapsed s.envCount).val
    keys := Config.keySample s.envCount
    rand := Config.randSample s.envCount
    envCount := s.envCount + 1 }

/-! ### Initialisation and load -/

/-- `Init` (R140): Machine State; the driver's controls and SHIFT_USES_VY stand (R141, decision D20). The instants of the
timers are free values (R24, U19). Memory with nothing listed is all 0 but for the font. -/
def State.init (s : State) : State :=
  { s with
    v := Vector.replicate 16 0x00#8
    i := 0x0000#16
    sp := 0x00#8
    stack := Vector.replicate 16 0x0000#16
    dtSet := 0x00#8
    dtT0 := (Config.initAnchors s.envCount).1
    stSet := 0x00#8
    stT0 := (Config.initAnchors s.envCount).2
    mem := []
    disp := Display.off
    keys := Vector.replicate 16 false
    pc := 0x0200#16
    status := .normal }

/-- `PROG_BASE` (R4). -/
def progBase : Word := 0x0200#16

/-- `PROG_CAPACITY` = 4096 - 512 bytes (R4, R142). -/
def progCapacity : Nat := 3584

/-- `mem[0x200 .. 0xFFF] <- 0`: no cell of the program region is listed, and its initial contents are 0. -/
def clearProgram (m : Memory) : Memory := m.filter (fun c => c.1 < 512)

/-- `Load` (R142); `none` is a stream that cannot be read in full. On failure no state changes but the report. -/
def State.load (s : State) (stream : Option (List Byte)) : State :=
  match stream with
  | none => { s with loadReport := some .failure }
  | some bs =>
    if bs.length ≤ progCapacity then
      { s with mem := writeBytes (clearProgram s.mem) progBase bs, loadReport := some .success }
    else { s with loadReport := some .failure }

/-! ### The tick (R144) -/

/-- The sleep of a tick: `TICK_SLEEP` and a free further time pass, and the tick's `Now()` is sampled (R144, D16). -/
def State.sleepTick (s : State) : State := ({ s with now := s.now + Config.tickSleep.val }).sampleNow

/-- A pending reset carried out (R141): initialisation, the request cleared, the budget's anchor at this instant. -/
def State.performReset (s : State) : State := { s.init with resetPending := false, lastInstrTick := s.now }

/-- The reset check (R141, R144). -/
def State.consumeReset (s : State) : State := if s.resetPending then s.performReset else s

/-- The edge between the stored level and a new one (R130). -/
def edgeBetween (old new : Bool) : Option AudioEdge :=
  match old, new with
  | false, true => some .start
  | true, false => some .stop
  | false, false => none
  | true, true => none

/-- The audio evaluation (R130, R131). -/
def State.evalAudio (s : State) : State :=
  { s with audioOn := s.audioLevel, audioEdge := edgeBetween s.audioOn s.audioLevel }

/-- `floor((Now() - last_instr_tick) * clock_hz)` (R145). -/
def State.rawBudget (s : State) : Nat := ⌊(s.now - s.lastInstrTick) * (s.clockHz : Rat)⌋₊

/-- The budget after the single-step gate (R137, R145). -/
def State.gatedBudget (s : State) : Nat :=
  if s.singleStepEn then (if s.singleStepReq then min s.rawBudget 1 else 0) else s.rawBudget

/-- `Budget()` (R145): the request is cleared when it is read; the anchor moves only with a grant (decision D22). -/
def State.grantBudget (s : State) : State :=
  { s with
    budget := s.gatedBudget
    singleStepReq := if s.singleStepEn then false else s.singleStepReq
    lastInstrTick := if 1 ≤ s.gatedBudget then s.now else s.lastInstrTick }

/-- One tick up to its instruction steps (R144). After a shutdown the loop is left: nothing happens any more (R138). -/
def State.tick (s : State) : State :=
  if s.shutdown then s else s.sleepTick.consumeReset.evalAudio.grantBudget

/-! ### Around one instruction step -/

/-- Before the instruction: one unit of the budget is spent and the samples are taken. -/
def State.beginInstr (s : State) : State := ({ s with budget := s.budget - 1 }).sampleStep

/-- The debug snapshot of the state after an instruction step (R136, R144). -/
def State.snapshotOf (s : State) (i : Option Instr) : Snapshot where
  v := s.v
  i := s.i
  pc := s.pc
  sp := s.sp
  stack := s.stack
  dtSet := s.dtSet
  dtT0 := s.dtT0
  stSet := s.stSet
  stT0 := s.stT0
  keys := s.keys
  instr := i

/-- After the instruction: the snapshot is regenerated, and the outcome `NoInstruction` ends the tick's budget (R144). -/
def State.settle (s : State) (i : Option Instr) : State :=
  { s with
    snapshot := some (s.snapshotOf i)
    budget := if s.outcome = some .noInstruction then 0 else s.budget }

/-- `settle` on a result. -/
def endInstr (i : Option Instr) (r : Result) : Result :=
  match r with
  | .next s => .next (s.settle i)
  | .fault f => .fault f
  | .refused f => .refused f

/-! ### The host -/

/-- A clock rate brought into [CLOCK_HZ_MIN, CLOCK_HZ_MAX] (R146; decision D24). -/
def clampClock (hz : Int) : Nat := min clockHzMax (max 1 hz.toNat)

/-- Idle to Running; the budget counts from this instant (R21, R138). In Running it does nothing. -/
def State.start (s : State) : State :=
  match s.runState with
  | .idle => { s.sampleNow with runState := .running, lastInstrTick := s.sampleNow.now }
  | .running => s

/-- One move of the host (R41, R121, R133, R137, R138, R141, R142, R146). -/
def State.hostMove (s : State) (m : HostMove) : State :=
  match m with
  | .pass => s
  | .start => s.start
  | .requestReset => { s with resetPending := true }
  | .load stream => s.load stream
  | .setClock hz => { s with clockHz := clampClock hz }
  | .setSingleStep on => { s with singleStepEn := on }
  | .requestStep => { s with singleStepReq := true }
  | .shutdown => { s with shutdown := true }
  | .copyDisplay => { s with frame := some s.disp }

/-! ### Whose turn it is -/

/-- What the next step of the machine is. -/
inductive Turn where
  /-- A move of the host. -/
  | host (m : HostMove)
  /-- In Idle no tick runs (R138). -/
  | idle
  /-- A tick begins (R144). -/
  | tick
  /-- An instruction step of the current tick's budget (R144). -/
  | instr
  deriving DecidableEq, Repr

/-- The turn of the driver's thread. -/
def State.threadTurn (s : State) : Turn :=
  match s.runState with
  | .idle => .idle
  | .running => if s.budget = 0 then .tick else .instr

/-- Whose turn it is: the host's if it has a move other than `pass`, else the thread's. -/
def State.turn (s : State) : Turn :=
  match s.hostQueue with
  | [] => s.threadTurn
  | .pass :: _ => s.threadTurn
  | m :: _ => .host m

/-- The host's queue without its first entry. -/
def State.popHost (s : State) : State := { s with hostQueue := s.hostQueue.tail }

/-- `s` with the machine about to take an instruction step: Running, budget left, no move of the host before it. -/
def State.readyToStep (s : State) : State :=
  { s with runState := .running, budget := max 1 s.budget, hostQueue := [] }

end Sys2Proof.Machine
end

