-- ==== Sys2Proof/Machine/Step.lean ====
section
/-! DEFINITION. The machine's step: one move of the host, one tick of the driver, or one instruction step of the executor
(spec/00_scope.md R7, spec/40_fetch_decode_execute.md R60, spec/70_reset_and_hazards.md R144). Everything it calls
stands in the other files of Machine/. -/

namespace Sys2Proof.Machine

/-- One instruction step (R60): sample, fetch, decode, execute, settle. A word of no row is ignored (R62). -/
def instrStep (s : State) : Result :=
  match s.beginInstr.fetchDecode with
  | .ok i => endInstr (some i) (exec i s.beginInstr)
  | .error _ => endInstr none (ignoreWord s.beginInstr)

/-- One step of the machine. -/
def step (s : State) : Host.Outcome State Fault Refusal :=
  match s.turn with
  | .host m => .next (s.popHost.hostMove m)
  | .idle => .next s.popHost
  | .tick => .next s.popHost.tick
  | .instr => instrStep s.popHost

/-- `s` with the table word `w` of `nbits` bits stored where the next instruction is fetched, the machine about to take an
instruction step (notes/assumptions/20.md). -/
def State.withFetchWord (s : State) (nbits w : Nat) : State := (s.withWord (tableWord nbits w)).readyToStep

end Sys2Proof.Machine
end

