-- ==== Sys2Proof/Safety.lean ====
section
/-! DEFINITION. The terms the statements use: what a run keeps, which state an instruction may write, the invariant of
every step, and the states from which no instruction step changes anything (spec/00_scope.md R8, "stutter"). -/

namespace Sys2Proof.Machine

/-- A result that is a next state: the only safe end of a step, and on this hardware the only end (R120). -/
def Completes (r : Result) : Prop := ∃ t, r = .next t

/-- Every byte of memory reads in `t` as in `s`. -/
def SameMemory (s t : State) : Prop := ∀ a, readByte t.mem a = readByte s.mem a

/-- The timer anchors stand (R16). -/
structure SameTimers (s t : State) : Prop where
  dtSet : t.dtSet = s.dtSet
  dtT0 : t.dtT0 = s.dtT0
  stSet : t.stSet = s.stSet
  stT0 : t.stT0 = s.stT0

/-- The samples of the step stand (R66). -/
structure SameSamples (s t : State) : Prop where
  keys : t.keys = s.keys
  now : t.now = s.now
  rand : t.rand = s.rand
  envCount : t.envCount = s.envCount

/-- What a program cannot reach stands (R21, R125): the configuration, the driver's controls, the host's interface. -/
structure SameControls (s t : State) : Prop where
  shiftUsesVy : t.shiftUsesVy = s.shiftUsesVy
  runState : t.runState = s.runState
  resetPending : t.resetPending = s.resetPending
  clockHz : t.clockHz = s.clockHz
  singleStepEn : t.singleStepEn = s.singleStepEn
  singleStepReq : t.singleStepReq = s.singleStepReq
  shutdown : t.shutdown = s.shutdown
  lastInstrTick : t.lastInstrTick = s.lastInstrTick
  budget : t.budget = s.budget
  audioOn : t.audioOn = s.audioOn
  audioEdge : t.audioEdge = s.audioEdge
  snapshot : t.snapshot = s.snapshot
  hostQueue : t.hostQueue = s.hostQueue
  loadReport : t.loadReport = s.loadReport
  frame : t.frame = s.frame

/-- Everything a program can write stands (R125), `PC` included: registers, stack, memory, display, timer anchors. -/
structure SameProgramState (s t : State) : Prop where
  v : t.v = s.v
  i : t.i = s.i
  pc : t.pc = s.pc
  sp : t.sp = s.sp
  stack : t.stack = s.stack
  mem : t.mem = s.mem
  disp : t.disp = s.disp
  timers : SameTimers s t

end Sys2Proof.Machine

namespace Sys2Proof

/-- The registers an instruction may write: its destination `x` (R81 to R92, R100, R112, R113) and `VF` where R11 lists it
as flag output. -/
def Instr.writesReg (i : Instr) (r : Reg) : Prop :=
  match i with
  | .ldImm x _ | .addImm x _ | .ldReg x _ | .orReg x _ | .andReg x _ | .xorReg x _ | .rnd x _ => r = x
  | .addReg x _ | .sub x _ | .shr x _ | .subn x _ | .shl x _ => r = x ∨ r = 0xF#4
  | .drw _ _ _ => r = 0xF#4
  | .ldVxDt x | .ldVxK x => r = x
  | .loadRegs x => r.toNat ≤ x.toNat
  | .cls | .ret | .jp _ | .call _ | .seImm _ _ | .sneImm _ _ | .seReg _ _ | .sneReg _ _ => False
  | .ldI _ | .jpV0 _ | .skp _ | .sknp _ | .ldDtVx _ | .ldStVx _ | .addI _ | .ldF _ | .ldB _ => False
  | .storeRegs _ | .sys _ | .sentinel => False

/-- How many bytes from `I` on an instruction stores (R98, R99; R30). -/
def Instr.storeCount (i : Instr) : Nat :=
  match i with
  | .ldB _ => 3
  | .storeRegs x => x.toNat + 1
  | .cls | .ret | .jp _ | .call _ | .seImm _ _ | .sneImm _ _ | .seReg _ _ | .ldImm _ _ | .addImm _ _ => 0
  | .ldReg _ _ | .orReg _ _ | .andReg _ _ | .xorReg _ _ | .addReg _ _ | .sub _ _ | .shr _ _ | .subn _ _ => 0
  | .shl _ _ | .sneReg _ _ | .ldI _ | .jpV0 _ | .rnd _ _ | .drw _ _ _ | .skp _ | .sknp _ | .ldVxDt _ => 0
  | .ldVxK _ | .ldDtVx _ | .ldStVx _ | .addI _ | .ldF _ | .loadRegs _ | .sys _ | .sentinel => 0

/-- The four skips and the two key skips (R64). -/
def Instr.isSkip (i : Instr) : Bool :=
  match i with
  | .seImm _ _ | .sneImm _ _ | .seReg _ _ | .sneReg _ _ | .skp _ | .sknp _ => true
  | .cls | .ret | .jp _ | .call _ | .ldImm _ _ | .addImm _ _ | .ldReg _ _ | .orReg _ _ | .andReg _ _ => false
  | .xorReg _ _ | .addReg _ _ | .sub _ _ | .shr _ _ | .subn _ _ | .shl _ _ | .ldI _ | .jpV0 _ => false
  | .rnd _ _ | .drw _ _ _ | .ldVxDt _ | .ldVxK _ | .ldDtVx _ | .ldStVx _ | .addI _ | .ldF _ | .ldB _ => false
  | .storeRegs _ | .loadRegs _ | .sys _ | .sentinel => false

/-- Jumps, call and return set `PC` for themselves (R64). -/
def Instr.isTransfer (i : Instr) : Bool :=
  match i with
  | .ret | .jp _ | .call _ | .jpV0 _ => true
  | .cls | .seImm _ _ | .sneImm _ _ | .seReg _ _ | .sneReg _ _ | .skp _ | .sknp _ | .ldImm _ _ => false
  | .addImm _ _ | .ldReg _ _ | .orReg _ _ | .andReg _ _ | .xorReg _ _ | .addReg _ _ | .sub _ _ => false
  | .shr _ _ | .subn _ _ | .shl _ _ | .ldI _ | .rnd _ _ | .drw _ _ _ | .ldVxDt _ | .ldVxK _ => false
  | .ldDtVx _ | .ldStVx _ | .addI _ | .ldF _ | .ldB _ | .storeRegs _ | .loadRegs _ | .sys _ | .sentinel => false

end Sys2Proof

namespace Sys2Proof.Machine

/-- Sprite pixel (`cx`, `cy`) of `DRW Vx, Vy, n` in `s` is a set bit of the sprite (R106). -/
def State.spriteCovers (s : State) (x y : Reg) (n : Nibble) (cx : Fin 64) (cy : Fin 32) : Prop :=
  ∃ r c : Nat, r < n.toNat ∧ c < 8 ∧ (s.dataByte r).getLsbD (7 - c) = true ∧
    cx.val = ((s.getV x).toNat + c) % 64 ∧ cy.val = ((s.getV y).toNat + r) % 32

/-- What every step keeps, from any state (R17, R7, R146, R112; notes/assumptions/27.md). -/
structure State.Inv (s : State) : Prop where
  memWf : Memory.wf s.mem
  clockLow : 1 ≤ s.clockHz
  clockHigh : s.clockHz ≤ clockHzMax
  nowNonneg : 0 ≤ s.now
  dtAnchor : s.dtSet = 0x00#8 ∨ s.dtT0 ≤ s.now
  stAnchor : s.stSet = 0x00#8 ∨ s.stT0 ≤ s.now
  lastTick : s.lastInstrTick ≤ s.now
  waiting : s.status = .waitingForKey → s.outcome = some .waiting

/-- No move of the host and no reset is pending (R61 "until a program load or a reset"). -/
structure Undisturbed (s : State) : Prop where
  host : s.hostQueue = []
  reset : s.resetPending = false

/-- `PC` points at the sentinel word: the machine's only halt (R61, R149). -/
def State.atSentinel (s : State) : Prop := s.fetchWord = 0x0000#16

/-- `PC` points at an unrecognized word, at `SYS`, or at a `RET` with an empty stack (R62, R63, R70; P7 of 95). -/
def State.atStutter (s : State) : Prop :=
  (∃ c, s.fetchDecode = .error c) ∨ (∃ nnn, s.fetchDecode = .ok (.sys nnn)) ∨
    (s.fetchDecode = .ok .ret ∧ s.sp = 0x00#8)

end Sys2Proof.Machine
end

