-- ==== Sys2Proof/Certificates/Slice0/Obligations.lean ====
section
/-! DEFINITION. The statements for the provers. Each docstring names the rules or sections of spec/ it formalises and, where
it rests on a decision of the spec or of the model, the log entry notes/assumptions/<n>.md. Every next state below is the
one `exec` or `step` answers; `x`, `y`, `kk`, `nnn`, `n` range over every value the encoding has. -/

open Sys2Proof Sys2Proof.Machine

/-! ### Encoding -/

/-- Decoding the word of a well-formed instruction gives the instruction back, for all of them and every operand
(30_encoding.md sections 2 to 4). Field positions and opcode numbers are the spec's choice D2 (log 8), exact matching D3 (log 9). -/
def Obligations.DecodeOfEncodeIsTheInstruction : Prop :=
  ∀ i : Instr, i.wellFormed = true → decodeWord (encode i) = .ok i ∧ decodeBytes (encodeBytes i) = .ok i

/-- A word that decodes is the word of what it decodes to, which is well formed: each word has one meaning
(30_encoding.md section 4; choices as above, logs 8 and 9). -/
def Obligations.EncodeOfDecodeIsTheWord : Prop :=
  ∀ (w : Word) (i : Instr), decodeWord w = .ok i → i.wellFormed = true ∧ encode i = w

/-- The decoder recognizes an instruction exactly where a row of the opcode map matches: `w AND mask = match`, and the row
is that of the instruction decoded (30_encoding.md section 4; exact matching is decision D3, log 9). -/
def Obligations.RecognizedExactlyByMatchAndMask : Prop :=
  ∀ w : Word,
    ((∃ i, decodeWord w = .ok i ∧ rowOf i ∈ opcodeRows) ↔ ∃ r ∈ opcodeRows, w &&& r.2 = r.1) ∧
    (∀ i, decodeWord w = .ok i → w &&& (rowOf i).2 = (rowOf i).1)

/-- Which words are rejected, and under which name: the classes of the table of unrecognized words, less its class 0nnn, whose
words decode to `SYS` (30_encoding.md section 5; decisions D3, D4, log 9). -/
def Obligations.RejectedWordsByClass : Prop :=
  ∀ w : Word,
    (decodeWord w = .error .class5 ↔ fieldOp w = 0x5#4 ∧ fieldN w ≠ 0x0#4) ∧
    (decodeWord w = .error .class8 ↔
      fieldOp w = 0x8#4 ∧ fieldN w ∈ [0x8#4, 0x9#4, 0xA#4, 0xB#4, 0xC#4, 0xD#4, 0xF#4]) ∧
    (decodeWord w = .error .class9 ↔ fieldOp w = 0x9#4 ∧ fieldN w ≠ 0x0#4) ∧
    (decodeWord w = .error .classE ↔ fieldOp w = 0xE#4 ∧ fieldKk w ∉ [0x9E#8, 0xA1#8]) ∧
    (decodeWord w = .error .classF ↔
      fieldOp w = 0xF#4 ∧
        fieldKk w ∉ [0x07#8, 0x0A#8, 0x15#8, 0x18#8, 0x1E#8, 0x29#8, 0x33#8, 0x55#8, 0x65#8]) ∧
    decodeWord w ≠ .error .truncated

/-- R50: the word 0x0000, and no other word, is the sentinel; the step on it changes nothing a program can reach and is the
outcome NoInstruction. -/
def Obligations.OnlyTheZeroWordIsTheSentinel : Prop :=
  (∀ w : Word, decodeWord w = .ok .sentinel ↔ w = 0x0000#16) ∧
    ∀ s : State, ∃ t, exec .sentinel s = .next t ∧ SameProgramState s t ∧ SameSamples s t ∧ SameControls s t ∧
      t.outcome = some .noInstruction ∧ t.status = .normal

/-- A few words of the spec's own examples, one per family, read as the instructions they stand for (95_test_vectors.md;
opcode numbers are decision D2, log 8). -/
def Obligations.WordsOfTheSpecsExamplesDecode : Prop :=
  decodeTableWord 16 0x00E0 = some .cls ∧ decodeTableWord 16 0xB300 = some (.jpV0 0x300#12) ∧
    decodeTableWord 16 0x4A05 = some (.sneImm 0xA#4 0x05#8) ∧ decodeTableWord 16 0x8127 = some (.subn 0x1#4 0x2#4) ∧
    decodeTableWord 16 0xF265 = some (.loadRegs 0x2#4) ∧ decodeTableWord 16 0xD122 = some (.drw 0x1#4 0x2#4 0x2#4) ∧
    decodeTableWord 16 0xE1A1 = some (.sknp 0x1#4) ∧ decodeTableWord 16 0x0123 = some (.sys 0x123#12) ∧
    decodeTableWord 16 0x5121 = none

/-! ### Fetch and step -/

/-- Every instruction is 2 bytes, and the fetch reads `mem[PC mod 4096]` as the high byte and `mem[(PC + 1) mod 4096]` as the low
byte (30_encoding.md section 1, 20_memory.md sections 1 to 3). That it masks a `PC` of any size is the spec's choice D5, that it reads
at any parity its choice D6 (log 10). -/
def Obligations.FetchReadsTwoBytesHighFirst : Prop :=
  (∀ i : Instr, (encodeBytes i).length = 2) ∧
    ∀ s : State, s.fetchDecode =
      decodeWord (readByte s.mem (s.pc.toNat % 4096) ++ readByte s.mem ((s.pc.toNat + 1) % 4096))

/-- A step runs the decoded instruction (40_fetch_decode_execute.md section 1): where it is the executor's turn and the word
at `PC` decodes to `i`, the step is `exec i` at the state with this step's samples taken (time, keys, random byte, log 2), one unit of
the budget spent and the host's `pass` consumed (log 17); afterwards the debug snapshot holds the new state and `i`, and the
outcome NoInstruction, alone, ends the tick's budget. -/
def Obligations.StepRunsTheDecodedInstruction : Prop :=
  ∀ (s : State) (i : Instr), s.turn = .instr → s.fetchDecode = .ok i →
    step s = endInstr (some i) (exec i s.popHost.beginInstr) ∧
    SameProgramState s s.popHost.beginInstr ∧
    s.popHost.beginInstr.budget = s.budget - 1 ∧
    s.now ≤ s.popHost.beginInstr.now ∧
    s.popHost.beginInstr.keys = Config.keySample s.envCount ∧
    s.popHost.beginInstr.rand = Config.randSample s.envCount ∧
    ∀ t, exec i s.popHost.beginInstr = .next t →
      step s = .next (t.settle (some i)) ∧ SameProgramState t (t.settle (some i)) ∧
        (t.settle (some i)).snapshot = some (t.snapshotOf (some i)) ∧
        (t.settle (some i)).budget = (if t.outcome = some .noInstruction then 0 else t.budget)

/-- The words without effect (40_fetch_decode_execute.md section 1; which words: D3, D4, log 9). `SYS` changes nothing and is
Ignored. A step on an unrecognized word changes nothing a program can reach, `PC` included, and spends one unit of the budget, which goes
on. A step on the sentinel changes nothing a program can reach and ends the tick's budget. -/
def Obligations.WordsWithoutEffect : Prop :=
  (∀ (nnn : Addr12) (s : State), ∃ t, exec (.sys nnn) s = .next t ∧ SameProgramState s t ∧ SameSamples s t ∧
    SameControls s t ∧ t.outcome = some .ignored ∧ t.status = .normal) ∧
  (∀ (s : State) (c : Reject), s.turn = .instr → s.fetchDecode = .error c →
    ∃ t, step s = .next t ∧ SameProgramState s t ∧ t.outcome = some .ignored ∧ t.status = .normal ∧
      t.budget = s.budget - 1) ∧
  (∀ s : State, s.turn = .instr → s.atSentinel →
    ∃ t, step s = .next t ∧ SameProgramState s t ∧ t.outcome = some .noInstruction ∧ t.status = .normal ∧
      t.budget = 0)

/-- The hardware has no fault (60_exceptions.md section 1): every step of the machine, from every state, answers a next state. -/
def Obligations.NoStepFaultsOrIsRefused : Prop := ∀ s : State, Completes (step s)

/-- Every instruction answers a next state, with exactly one of the four outcomes (00_scope.md section 5): NoInstruction
for the sentinel, Ignored for `SYS` (decision D4, log 9), Waiting for `LD Vx, K` with no key pressed, Executed otherwise; the status
output is WaitingForKey exactly after Waiting. -/
def Obligations.EveryInstructionHasOneOutcome : Prop :=
  ∀ (i : Instr) (s : State), ∃ t, exec i s = .next t ∧
    (t.outcome = some .noInstruction ↔ i = .sentinel) ∧
    (t.outcome = some .ignored ↔ ∃ nnn, i = .sys nnn) ∧
    (t.outcome = some .waiting ↔ (∃ x, i = .ldVxK x) ∧ ∀ k, s.keyDown k = false) ∧
    (t.outcome = some .executed ∨ t.outcome = some .noInstruction ∨ t.outcome = some .ignored ∨
      t.outcome = some .waiting) ∧
    (t.status = .waitingForKey ↔ t.outcome = some .waiting)

/-- How `PC` advances (40_fetch_decode_execute.md section 2; modulo 2^16 is decision D5, log 10): outside jumps, calls and returns it
gains 2 after an executed instruction, or 4 if the instruction is a skip, and stands after any other outcome. -/
def Obligations.ProgramCounterAdvance : Prop :=
  ∀ (i : Instr) (s t : State), exec i s = .next t → i.isTransfer = false →
    (t.outcome = some .executed → t.pc = s.pc + 2#16 ∨ (i.isSkip = true ∧ t.pc = s.pc + 4#16)) ∧
    (t.outcome ≠ some .executed → t.pc = s.pc)

/-! ### Memory -/

/-- A read gives the byte most recently written there, at the masked address, and a write leaves every other byte alone; a run of
bytes goes to ascending addresses, each masked for itself, and to no other (20_memory.md sections 1, 4 and 6; masking at the access
is decision D5, log 10). -/
def Obligations.MemoryReadAfterWrite : Prop :=
  (∀ (s : State) (a b : Word) (v : Byte),
    (s.memWrite a [v]).memRead b = if a.toNat % 4096 = b.toNat % 4096 then v else s.memRead b) ∧
  ∀ (m : Memory) (a : Word) (bs : List Byte), bs.length ≤ 4096 →
    (∀ k (h : k < bs.length), readByte (writeBytes m a bs) ((a.toNat + k) % 4096) = bs[k]) ∧
    (∀ x, (∀ k < bs.length, x ≠ (a.toNat + k) % 4096) → readByte (writeBytes m a bs) x = readByte m x)

/-- Memory's list is canonical: two memories in the form of `Memory.wf` that read alike everywhere are the same list (the model's
choice, log 27). -/
def Obligations.EqualReadsMeanEqualMemory : Prop :=
  ∀ m₁ m₂ : Memory, Memory.wf m₁ → Memory.wf m₂ → (∀ a, readByte m₁ a = readByte m₂ a) → m₁ = m₂

/-- A store over the next instruction is seen by its fetch (20_memory.md section 6; derived there), for every store that covers both
bytes: `LD [I], Vx` whose register `j`, below `x`, goes to the next instruction's address makes it the word V[j] V[j + 1]; `LD B, Vx`
with the hundreds there makes it hundreds and tens, with the tens there tens and ones. The address is masked at the access (D5, log 10)
and `I` stands (D25, log 14). -/
def Obligations.StoreIsSeenByTheNextFetch : Prop :=
  (∀ (x j : Reg) (s : State), j.toNat < x.toNat → (s.i.toNat + j.toNat) % 4096 = (s.pc.toNat + 2) % 4096 →
    ∃ t, exec (.storeRegs x) s = .next t ∧ t.pc = s.pc + 2#16 ∧ t.i = s.i ∧
      t.fetchWord = s.getV j ++ s.getV (j + 1#4)) ∧
  ∀ (x : Reg) (s : State),
    (s.i.toNat % 4096 = (s.pc.toNat + 2) % 4096 →
      ∃ t, exec (.ldB x) s = .next t ∧ t.pc = s.pc + 2#16 ∧ t.i = s.i ∧
        t.fetchWord.toNat = 256 * ((s.getV x).toNat / 100) + (s.getV x).toNat / 10 % 10) ∧
    ((s.i.toNat + 1) % 4096 = (s.pc.toNat + 2) % 4096 →
      ∃ t, exec (.ldB x) s = .next t ∧ t.pc = s.pc + 2#16 ∧ t.i = s.i ∧
        t.fetchWord.toNat = 256 * ((s.getV x).toNat / 10 % 10) + (s.getV x).toNat % 10)

/-! ### Invariant, reset, initialisation -/

/-- Every step keeps the invariant, from every state that meets it: memory stays canonical inside the 4096 bytes, the clock rate in
its bounds, time not negative and not before an anchor, and WaitingForKey follows only a wait (10_state.md sections 4, 5;
00_scope.md section 5; logs 2, 3, 24, 27). -/
def Obligations.EveryStepKeepsTheInvariant : Prop :=
  ∀ s t : State, s.Inv → step s = .next t → t.Inv

/-- The reset state meets the invariant (values the spec does not give: logs 3, 4, 5). -/
def Obligations.ResetMeetsTheInvariant : Prop := State.reset.Inv

/-- What reset leaves (10_state.md section 6; the font's base and bytes are defaults D13, D14, log 7; Idle and the driver's flags
D20, D24). -/
def Obligations.ResetValues : Prop :=
  (∀ r, State.reset.getV r = 0x00#8) ∧ State.reset.i = 0x0000#16 ∧ State.reset.pc = 0x0200#16 ∧
    State.reset.sp = 0x00#8 ∧ (∀ k (h : k < 16), State.reset.stack[k] = 0x0000#16) ∧
    (∀ t0 t, timerValue State.reset.dtSet t0 t = 0x00#8) ∧ (∀ t0 t, timerValue State.reset.stSet t0 t = 0x00#8) ∧
    (∀ cx cy, pixel State.reset.disp cx cy = false) ∧ (∀ k, State.reset.keyDown k = false) ∧
    (∀ a < 4096, readByte State.reset.mem a =
      if 0x100 ≤ a ∧ a < 0x150 then fontTable.getD (a - 0x100) 0x00#8 else 0x00#8) ∧
    State.reset.resetPending = false ∧ State.reset.singleStepEn = false ∧ State.reset.singleStepReq = false ∧
    State.reset.shutdown = false ∧ State.reset.runState = .idle ∧ State.reset.audioOn = false ∧
    State.reset.status = .normal ∧ State.reset.fetchWord = 0x0000#16

/-- Initialisation (70_reset_and_hazards.md section 1): from any state it zeroes Machine State, loads the font, seeds `PC`, and leaves
the driver's controls and SHIFT_USES_VY (decision D20); the first word fetched is the sentinel. Font: log 7. -/
def Obligations.InitialisationOfMachineState : Prop :=
  ∀ s : State,
    (∀ r, s.init.getV r = 0x00#8) ∧ s.init.i = 0x0000#16 ∧ s.init.pc = 0x0200#16 ∧ s.init.sp = 0x00#8 ∧
    (∀ k (h : k < 16), s.init.stack[k] = 0x0000#16) ∧ s.init.dtSet = 0x00#8 ∧ s.init.stSet = 0x00#8 ∧
    (∀ a < 4096, readByte s.init.mem a =
      if 0x100 ≤ a ∧ a < 0x150 then fontTable.getD (a - 0x100) 0x00#8 else 0x00#8) ∧
    (∀ cx cy, pixel s.init.disp cx cy = false) ∧ (∀ k, s.init.keyDown k = false) ∧ s.init.status = .normal ∧
    SameControls s s.init ∧ s.init.delayTimer = 0x00#8 ∧ s.init.soundTimer = 0x00#8 ∧
    s.init.audioLevel = false ∧ s.init.fetchWord = 0x0000#16

/-! ### Runs that change nothing -/

/-- The halt (40 section 1, 70 section 6): with no move of the host and no reset pending, a machine whose `PC` points at the
sentinel stays so for ever, through ticks and instruction steps, and nothing a program can reach changes. -/
def Obligations.SentinelHaltsTheProgram : Prop :=
  ∀ (s : State) (k : Nat), Undisturbed s → s.atSentinel →
    ∃ t, core.run k s = .next t ∧ SameProgramState s t ∧ t.atSentinel ∧ Undisturbed t

/-- The endless stutters (40 section 1, 41 `RET`; decisions D3, D4, D8, logs 9 and 11): an unrecognized word, `SYS`, or `RET` with
an empty stack changes nothing a program can reach, for ever. -/
def Obligations.StuttersNeverMakeProgress : Prop :=
  ∀ (s : State) (k : Nat), Undisturbed s → s.atStutter →
    ∃ t, core.run k s = .next t ∧ SameProgramState s t ∧ t.atStutter ∧ Undisturbed t

/-! ### Control transfer -/

/-- `RET` (41_control_flow.md; slot SP mod 16 is D7 and the empty stack D8, log 11). -/
def Obligations.RetPopsOrChangesNothing : Prop :=
  ∀ s : State, ∃ t, exec .ret s = .next t ∧ t.outcome = some .executed ∧ t.stack = s.stack ∧
    (s.sp ≠ 0x00#8 →
      t.pc = s.stack[s.sp.toNat % 16]'(Nat.mod_lt _ (Nat.zero_lt_succ 15)) ∧ t.sp.toNat = s.sp.toNat - 1) ∧
    (s.sp = 0x00#8 → SameProgramState s t)

/-- `JP nnn` and `JP V0, nnn` (41_control_flow.md; the unmasked sum is D5, log 10). -/
def Obligations.JumpsSetTheProgramCounter : Prop :=
  ∀ (nnn : Addr12) (s : State),
    (∃ t, exec (.jp nnn) s = .next t ∧ t.pc.toNat = nnn.toNat ∧ t.outcome = some .executed) ∧
    (∃ t, exec (.jpV0 nnn) s = .next t ∧ t.pc.toNat = nnn.toNat + (s.getV 0x0#4).toNat ∧
      t.outcome = some .executed)

/-- `CALL nnn` (41_control_flow.md): `SP` first, then the push of `PC + 2`, then the jump; no overflow check (D7, log 11). -/
def Obligations.CallPushesTheReturnAddress : Prop :=
  ∀ (nnn : Addr12) (s : State), ∃ t, exec (.call nnn) s = .next t ∧ t.outcome = some .executed ∧
    t.pc.toNat = nnn.toNat ∧ t.sp.toNat = (s.sp.toNat + 1) % 256 ∧
    ∀ k (h : k < 16), t.stack[k] = if k = (s.sp.toNat + 1) % 16 then s.pc + 2#16 else s.stack[k]

/-- Call and return round trip (95_test_vectors.md S7; 41_control_flow.md): returning at once gives `PC + 2` and the old `SP`; from
`SP` = 255 the return finds an empty stack and nothing changes (D7, D8, log 11). -/
def Obligations.CallThenReturn : Prop :=
  ∀ (nnn : Addr12) (s t : State), exec (.call nnn) s = .next t →
    ∃ u, exec .ret t = .next u ∧
      (s.sp ≠ 0xFF#8 → u.pc = s.pc + 2#16 ∧ u.sp = s.sp) ∧ (s.sp = 0xFF#8 → SameProgramState t u)

/-- The four skips (41_control_flow.md `SE`, `SNE`; exact matching of 5xy0 and 9xy0 is D3, log 9; the sum modulo 2^16 is D5, log 10). -/
def Obligations.SkipsOnEquality : Prop :=
  ∀ (x y : Reg) (kk : Byte) (s : State),
    (∃ t, exec (.seImm x kk) s = .next t ∧ t.outcome = some .executed ∧
      t.pc = if s.getV x = kk then s.pc + 4#16 else s.pc + 2#16) ∧
    (∃ t, exec (.sneImm x kk) s = .next t ∧ t.outcome = some .executed ∧
      t.pc = if s.getV x ≠ kk then s.pc + 4#16 else s.pc + 2#16) ∧
    (∃ t, exec (.seReg x y) s = .next t ∧ t.outcome = some .executed ∧
      t.pc = if s.getV x = s.getV y then s.pc + 4#16 else s.pc + 2#16) ∧
    (∃ t, exec (.sneReg x y) s = .next t ∧ t.outcome = some .executed ∧
      t.pc = if s.getV x ≠ s.getV y then s.pc + 4#16 else s.pc + 2#16)

/-! ### Loads and ALU -/

/-- `LD Vx, kk`, `ADD Vx, kk`, `LD Vx, Vy` (42_load_alu.md section 2): the destination, and no register else: in
particular no flag (D26, log 14). -/
def Obligations.LoadsAndImmediateAdd : Prop :=
  ∀ (x y : Reg) (kk : Byte) (s : State),
    (∃ t, exec (.ldImm x kk) s = .next t ∧ t.pc = s.pc + 2#16 ∧
      ∀ r, t.getV r = if r = x then kk else s.getV r) ∧
    (∃ t, exec (.addImm x kk) s = .next t ∧ t.pc = s.pc + 2#16 ∧
      ∀ r, (t.getV r).toNat = if r = x then ((s.getV x).toNat + kk.toNat) % 256 else (s.getV r).toNat) ∧
    (∃ t, exec (.ldReg x y) s = .next t ∧ t.pc = s.pc + 2#16 ∧
      ∀ r, t.getV r = if r = x then s.getV y else s.getV r)

/-- `OR`, `AND`, `XOR` (42_load_alu.md section 3): bit by bit into `V[x]`, no other register, no flag (D26, log 14). -/
def Obligations.BitwiseOperations : Prop :=
  ∀ (x y : Reg) (s : State),
    (∃ t, exec (.orReg x y) s = .next t ∧ t.pc = s.pc + 2#16 ∧ (∀ r, r ≠ x → t.getV r = s.getV r) ∧
      ∀ j < 8, (t.getV x).getLsbD j = ((s.getV x).getLsbD j || (s.getV y).getLsbD j)) ∧
    (∃ t, exec (.andReg x y) s = .next t ∧ t.pc = s.pc + 2#16 ∧ (∀ r, r ≠ x → t.getV r = s.getV r) ∧
      ∀ j < 8, (t.getV x).getLsbD j = ((s.getV x).getLsbD j && (s.getV y).getLsbD j)) ∧
    (∃ t, exec (.xorReg x y) s = .next t ∧ t.pc = s.pc + 2#16 ∧ (∀ r, r ≠ x → t.getV r = s.getV r) ∧
      ∀ j < 8, (t.getV x).getLsbD j = ((s.getV x).getLsbD j ^^ (s.getV y).getLsbD j))

/-- `ADD Vx, Vy` (42_load_alu.md section 4; 95 S1): the sum modulo 256, and `VF` = 1 iff it exceeds 255; with `x` = 15 the
result wins (D9, log 12). -/
def Obligations.AddRegisters : Prop :=
  ∀ (x y : Reg) (s : State), ∃ t, exec (.addReg x y) s = .next t ∧ t.pc = s.pc + 2#16 ∧
    ∀ r, (t.getV r).toNat =
      if r = x then ((s.getV x).toNat + (s.getV y).toNat) % 256
      else if r = 0xF#4 then (if 255 < (s.getV x).toNat + (s.getV y).toNat then 1 else 0)
      else (s.getV r).toNat

/-- `SUB` and `SUBN` (42_load_alu.md sections 1 and 4; 95 S2): the difference modulo 256 into `V[x]`, and `VF` = 1 iff minuend >
subtrahend, strictly; with `x` = 15 the result wins (D9, log 12). -/
def Obligations.SubtractRegisters : Prop :=
  ∀ (x y : Reg) (s : State),
    (∃ t, exec (.sub x y) s = .next t ∧ t.pc = s.pc + 2#16 ∧
      ∀ r, (t.getV r).toNat =
        if r = x then (256 + (s.getV x).toNat - (s.getV y).toNat) % 256
        else if r = 0xF#4 then (if (s.getV y).toNat < (s.getV x).toNat then 1 else 0)
        else (s.getV r).toNat) ∧
    (∃ t, exec (.subn x y) s = .next t ∧ t.pc = s.pc + 2#16 ∧
      ∀ r, (t.getV r).toNat =
        if r = x then (256 + (s.getV y).toNat - (s.getV x).toNat) % 256
        else if r = 0xF#4 then (if (s.getV x).toNat < (s.getV y).toNat then 1 else 0)
        else (s.getV r).toNat)

/-- `SHR` and `SHL` (42_load_alu.md section 5): the operand is `V[y]` if SHIFT_USES_VY and `V[x]` if not (OPEN, D10, log 6), the
result goes to `V[x]`, the bit shifted out to `VF`; with `x` = 15 the result wins (D9, log 12). -/
def Obligations.ShiftsByOne : Prop :=
  ∀ (x y : Reg) (s : State) (a : Byte), a = (if s.shiftUsesVy = true then s.getV y else s.getV x) →
    (∃ t, exec (.shr x y) s = .next t ∧ t.pc = s.pc + 2#16 ∧
      ∀ r, (t.getV r).toNat =
        if r = x then a.toNat / 2 else if r = 0xF#4 then a.toNat % 2 else (s.getV r).toNat) ∧
    (∃ t, exec (.shl x y) s = .next t ∧ t.pc = s.pc + 2#16 ∧
      ∀ r, (t.getV r).toNat =
        if r = x then a.toNat * 2 % 256 else if r = 0xF#4 then a.toNat / 128 else (s.getV r).toNat)

/-- `RND Vx, kk` (42_load_alu.md section 6): this step's random byte ANDed with the mask; in a step of the machine that byte is
the free draw of the sample (log 2). -/
def Obligations.RandomAndMask : Prop :=
  ∀ (x : Reg) (kk : Byte) (s : State),
    (∃ t, exec (.rnd x kk) s = .next t ∧ t.pc = s.pc + 2#16 ∧ t.getV x &&& ~~~kk = 0x00#8 ∧
      ∀ r, t.getV r = if r = x then s.rand &&& kk else s.getV r) ∧
    (s.turn = .instr → s.fetchDecode = .ok (.rnd x kk) →
      ∃ t, step s = .next t ∧ t.getV x = Config.randSample s.envCount &&& kk)

/-! ### Address register and memory -/

/-- `LD I, nnn`, `ADD I, Vx`, `LD F, Vx` (43_address_memory.md; the 16-bit sum is D31, log 14; the whole digit D12, log 13; the
font's base D13, log 7). -/
def Obligations.AddressRegisterWrites : Prop :=
  ∀ (nnn : Addr12) (x : Reg) (s : State),
    (∃ t, exec (.ldI nnn) s = .next t ∧ t.pc = s.pc + 2#16 ∧ t.i.toNat = nnn.toNat) ∧
    (∃ t, exec (.addI x) s = .next t ∧ t.pc = s.pc + 2#16 ∧
      t.i.toNat = (s.i.toNat + (s.getV x).toNat) % 65536) ∧
    (∃ t, exec (.ldF x) s = .next t ∧ t.pc = s.pc + 2#16 ∧ t.i.toNat = 0x100 + 5 * (s.getV x).toNat)

/-- `LD B, Vx` (43_address_memory.md; 95 S6): hundreds, tens, ones at `I`, `I + 1`, `I + 2`, each address masked; `I` stands. -/
def Obligations.StoreBcdDigits : Prop :=
  ∀ (x : Reg) (s : State), ∃ t, exec (.ldB x) s = .next t ∧ t.pc = s.pc + 2#16 ∧ t.i = s.i ∧
    (readByte t.mem (s.i.toNat % 4096)).toNat = (s.getV x).toNat / 100 ∧
    (readByte t.mem ((s.i.toNat + 1) % 4096)).toNat = (s.getV x).toNat / 10 % 10 ∧
    (readByte t.mem ((s.i.toNat + 2) % 4096)).toNat = (s.getV x).toNat % 10

/-- `LD [I], Vx` (43_address_memory.md): `V[0]`..`V[x]` to ascending masked addresses; `I` stands (D25, log 14). -/
def Obligations.StoreRegisters : Prop :=
  ∀ (x : Reg) (s : State), ∃ t, exec (.storeRegs x) s = .next t ∧ t.pc = s.pc + 2#16 ∧ t.i = s.i ∧
    ∀ r : Reg, r.toNat ≤ x.toNat → readByte t.mem ((s.i.toNat + r.toNat) % 4096) = s.getV r

/-- `LD Vx, [I]` (43_address_memory.md): `V[0]`..`V[x]` from ascending masked addresses; `I` stands (D25, log 14). -/
def Obligations.LoadRegisters : Prop :=
  ∀ (x : Reg) (s : State), ∃ t, exec (.loadRegs x) s = .next t ∧ t.pc = s.pc + 2#16 ∧ t.i = s.i ∧
    ∀ r : Reg, t.getV r =
      if r.toNat ≤ x.toNat then readByte s.mem ((s.i.toNat + r.toNat) % 4096) else s.getV r

/-- The round trip of the source (43_address_memory.md; 95 S5): a store then a load of the same range with the same `I`, whatever
the registers became in between, restores the registers stored. -/
def Obligations.StoreThenLoadRestoresRegisters : Prop :=
  ∀ (x : Reg) (s t u : State), exec (.storeRegs x) s = .next t → u.mem = t.mem → u.i = s.i →
    ∃ w, exec (.loadRegs x) u = .next w ∧ ∀ r : Reg, r.toNat ≤ x.toNat → w.getV r = s.getV r

/-! ### Display -/

/-- `CLS` turns every pixel off, writes no register, so no flag, and advances `PC` by 2 (44_display.md). That the whole word is
matched, so that 0x00E0 and no other word decodes to it, is exact matching, the spec's choice D3 (log 9). -/
def Obligations.ClearScreen : Prop :=
  (∀ w : Word, decodeWord w = .ok .cls ↔ w = 0x00E0#16) ∧
    ∀ s : State, ∃ t, exec .cls s = .next t ∧ t.pc = s.pc + 2#16 ∧ t.v = s.v ∧
      ∀ cx cy, pixel t.disp cx cy = false

/-- `DRW Vx, Vy, n` (44_display.md): each pixel of the display is XORed with the sprite, both axes wrapping; `VF` = 1 iff some
pixel went from on to off; coordinates are the old registers, `n` = 0 draws nothing and clears `VF` (D27, log 12). -/
def Obligations.DrawSpriteXors : Prop :=
  ∀ (x y : Reg) (n : Nibble) (s : State), ∃ t, exec (.drw x y n) s = .next t ∧ t.pc = s.pc + 2#16 ∧ t.i = s.i ∧
    (∀ cx cy, s.spriteCovers x y n cx cy → pixel t.disp cx cy = !pixel s.disp cx cy) ∧
    (∀ cx cy, ¬ s.spriteCovers x y n cx cy → pixel t.disp cx cy = pixel s.disp cx cy) ∧
    ((∃ cx cy, s.spriteCovers x y n cx cy ∧ pixel s.disp cx cy = true) → t.getV 0xF#4 = 0x01#8) ∧
    ((¬ ∃ cx cy, s.spriteCovers x y n cx cy ∧ pixel s.disp cx cy = true) → t.getV 0xF#4 = 0x00#8)

/-- Drawing the same sprite twice at the same place restores the display (44_display.md; derived there). -/
def Obligations.DrawTwiceRestoresTheDisplay : Prop :=
  ∀ (x y : Reg) (n : Nibble) (s t u : State), x ≠ 0xF#4 → y ≠ 0xF#4 →
    exec (.drw x y n) s = .next t → exec (.drw x y n) t = .next u → u.disp = s.disp

/-! ### Keypad and timers -/

/-- `SKP` and `SKNP` (45_keypad_timers.md section 1): the key is the low 4 bits of `V[x]` (D11, log 13), its state this
step's sample (log 2). -/
def Obligations.SkipsOnAKey : Prop :=
  ∀ (x : Reg) (s : State) (k : Reg), k.toNat = (s.getV x).toNat % 16 →
    (∃ t, exec (.skp x) s = .next t ∧ t.outcome = some .executed ∧
      t.pc = if s.keyDown k = true then s.pc + 4#16 else s.pc + 2#16) ∧
    (∃ t, exec (.sknp x) s = .next t ∧ t.outcome = some .executed ∧
      t.pc = if s.keyDown k = false then s.pc + 4#16 else s.pc + 2#16)

/-- `LD Vx, K` (45_keypad_timers.md section 1; completion on a held key is D30, log 15): the least pressed key is stored and
`PC` advances; with no key pressed nothing changes and the outcome is Waiting. -/
def Obligations.WaitForKey : Prop :=
  ∀ (x : Reg) (s : State), ∃ t, exec (.ldVxK x) s = .next t ∧
    (∀ k : Reg, s.keyDown k = true → (∀ j : Reg, j.toNat < k.toNat → s.keyDown j = false) →
      (t.getV x).toNat = k.toNat ∧ (∀ r, r ≠ x → t.getV r = s.getV r) ∧ t.pc = s.pc + 2#16 ∧
        t.outcome = some .executed ∧ t.status = .normal) ∧
    ((∀ k, s.keyDown k = false) →
      SameProgramState s t ∧ t.outcome = some .waiting ∧ t.status = .waitingForKey)

/-- `LD Vx, DT` (45_keypad_timers.md section 2): the computed value at this step's instant, 0 where the set value is 0; the
anchors stand. (An instant before the anchor cannot be reached with a set value above 0: `State.Inv`.) -/
def Obligations.ReadDelayTimer : Prop :=
  ∀ (x : Reg) (s : State), ∃ t, exec (.ldVxDt x) s = .next t ∧ t.pc = s.pc + 2#16 ∧ SameTimers s t ∧
    (s.dtT0 ≤ s.now →
      ((t.getV x).toNat : Int) = max 0 ((s.dtSet.toNat : Int) - ⌊60 * (s.now - s.dtT0)⌋)) ∧
    (s.dtSet = 0x00#8 → t.getV x = 0x00#8) ∧ ∀ r, r ≠ x → t.getV r = s.getV r

/-- R127: setting a timer replaces both of its anchors at once with `V[x]` and this step's instant, and leaves the other timer; no
other instruction, and no step of the machine other than an instruction that sets a timer, writes an anchor, except the
initialisation of a pending reset, which sets the values to 0. -/
def Obligations.OnlySettingWritesTheAnchors : Prop :=
  (∀ (x : Reg) (s : State), ∃ t, exec (.ldDtVx x) s = .next t ∧ t.dtSet = s.getV x ∧ t.dtT0 = s.now ∧
    t.stSet = s.stSet ∧ t.stT0 = s.stT0 ∧ t.pc = s.pc + 2#16) ∧
  (∀ (x : Reg) (s : State), ∃ t, exec (.ldStVx x) s = .next t ∧ t.stSet = s.getV x ∧ t.stT0 = s.now ∧
    t.dtSet = s.dtSet ∧ t.dtT0 = s.dtT0 ∧ t.pc = s.pc + 2#16) ∧
  (∀ (i : Instr) (s t : State), exec i s = .next t → (∀ x, i ≠ .ldDtVx x) → (∀ x, i ≠ .ldStVx x) →
    SameTimers s t) ∧
  (∀ s t : State, step s = .next t → ¬ (s.turn = .tick ∧ s.shutdown = false ∧ s.resetPending = true) →
    ¬ (s.turn = .instr ∧ ∃ x, s.fetchDecode = .ok (.ldDtVx x) ∨ s.fetchDecode = .ok (.ldStVx x)) → SameTimers s t) ∧
  (∀ s t : State, step s = .next t → s.turn = .tick → s.shutdown = false → s.resetPending = true →
    t.dtSet = 0x00#8 ∧ t.stSet = 0x00#8)

/-- R126: the timer value at an instant not before the anchor is `max(0, set - floor(60 * (t - t0)))`, computed in unbounded
integers, an integer 0 to 255, and 0 for ever if `set` is 0; `DT` and `ST` are its values at the anchors of each timer. -/
def Obligations.TimerValueFormula : Prop :=
  (∀ (set : Byte) (t0 t : Instant), t0 ≤ t →
    ((timerValue set t0 t).toNat : Int) = max 0 ((set.toNat : Int) - ⌊60 * (t - t0)⌋)) ∧
  (∀ t0 t : Instant, timerValue 0x00#8 t0 t = 0x00#8) ∧
  (∀ s : State, s.delayTimer = timerValue s.dtSet s.dtT0 s.now ∧ s.soundTimer = timerValue s.stSet s.stT0 s.now)

/-- Properties of the value function (60_exceptions.md section 4; derived there): it never rises, equals `set` exactly in the
first 1/60 s, is 0 exactly from set/60 s on. -/
def Obligations.TimerFallsToZeroOnTime : Prop :=
  ∀ (set : Byte) (t0 t1 t2 : Instant), t0 ≤ t1 → t1 ≤ t2 →
    (timerValue set t0 t2).toNat ≤ (timerValue set t0 t1).toNat ∧ (timerValue set t0 t1).toNat ≤ set.toNat ∧
    (timerValue set t0 t1 = set ↔ t1 - t0 < 1 / 60 ∨ set = 0x00#8) ∧
    (timerValue set t0 t1 = 0x00#8 ↔ (set.toNat : Rat) / 60 ≤ t1 - t0)

/-- The equivalent counter form (60_exceptions.md section 4; derived there): between `j/60` and `(j + 1)/60` seconds after the
write the value is that of an 8-bit counter loaded with `set` and decremented `j` times, stopping at 0. -/
def Obligations.TimerIsADownCounter : Prop :=
  ∀ (set : Byte) (t0 t : Instant) (j : Nat), (j : Rat) / 60 ≤ t - t0 → t - t0 < ((j : Rat) + 1) / 60 →
    timerValue set t0 t = (fun c : Byte => if c = 0x00#8 then c else c - 1#8)^[j] set

/-! ### Frames -/

/-- No instruction writes a general register other than its destination and, where it produces a flag, `VF` (10_state.md
section 2; that the others leave `VF` is D26, log 14). Every instruction; `writesReg` names the registers. -/
def Obligations.FrameOfRegisters : Prop :=
  ∀ (i : Instr) (s t : State), exec i s = .next t → ∀ r, ¬ i.writesReg r → t.getV r = s.getV r

/-- No instruction changes a byte of memory outside the bytes it stores at `I`, `I + 1`, ...: 3 for `LD B`, x + 1 for `LD [I], Vx`,
none for every other instruction (20_memory.md section 1, 43_address_memory.md). -/
def Obligations.FrameOfMemory : Prop :=
  ∀ (i : Instr) (s t : State), exec i s = .next t →
    (∀ a, (∀ k < i.storeCount, a ≠ maskAddr (s.dataAddr k)) → readByte t.mem a = readByte s.mem a) ∧
    (i.storeCount = 0 → t.mem = s.mem)

/-- `I` is written by `LD I`, `ADD I` and `LD F` only, the stack by `CALL` only, `SP` by `CALL` and `RET` only, the display by `CLS` and `DRW`
only (10_state.md sections 3 and 4; that the bulk moves leave `I` is D25, log 14). -/
def Obligations.FrameOfSpecialState : Prop :=
  ∀ (i : Instr) (s t : State), exec i s = .next t →
    ((∀ nnn, i ≠ .ldI nnn) → (∀ x, i ≠ .addI x) → (∀ x, i ≠ .ldF x) → t.i = s.i) ∧
    ((∀ nnn, i ≠ .call nnn) → t.stack = s.stack) ∧
    ((∀ nnn, i ≠ .call nnn) → i ≠ .ret → t.sp = s.sp) ∧
    (i ≠ .cls → (∀ x y n, i ≠ .drw x y n) → t.disp = s.disp)

/-- No instruction reaches the driver's controls, the configuration, the host's interface, or the samples (60_exceptions.md section 3;
10_state.md section 5). -/
def Obligations.ProgramsCannotReachTheControls : Prop :=
  ∀ (i : Instr) (s t : State), exec i s = .next t → SameControls s t ∧ SameSamples s t

/-- The shift-quirk flag selects the operand of the two shifts and nothing else (10_state.md section 5, 30_encoding.md section 5):
any other instruction runs alike under both settings. -/
def Obligations.OnlyShiftsReadTheShiftFlag : Prop :=
  ∀ (i : Instr) (s t : State) (q : Bool), (∀ x y, i ≠ .shr x y) → (∀ x y, i ≠ .shl x y) →
    exec i s = .next t → exec i { s with shiftUsesVy := q } = .next { t with shiftUsesVy := q }

/-- Only the three timer instructions use `Now()`, only `RND` uses `Rand()`, only `SKP`, `SKNP` and `LD Vx, K` use the keys
(40_fetch_decode_execute.md section 3). -/
def Obligations.SamplesAreReadOnlyWhereNamed : Prop :=
  ∀ (i : Instr) (s t : State), exec i s = .next t →
    (∀ q : Instant, (∀ x, i ≠ .ldVxDt x) → (∀ x, i ≠ .ldDtVx x) → (∀ x, i ≠ .ldStVx x) →
      exec i { s with now := q } = .next { t with now := q }) ∧
    (∀ q : Byte, (∀ x kk, i ≠ .rnd x kk) → exec i { s with rand := q } = .next { t with rand := q }) ∧
    (∀ q : Vector Bool 16, (∀ x, i ≠ .skp x) → (∀ x, i ≠ .sknp x) → (∀ x, i ≠ .ldVxK x) →
      exec i { s with keys := q } = .next { t with keys := q })

/-! ### The driver and the host -/

/-- A reset request is consumed at the start of the next tick and not before (70_reset_and_hazards.md sections 1 and 3, 10_state.md
section 6; D16, D20, D22, logs 18, 19): every general register, `I`, `SP`, the stack, the set values of the timers, memory, the
display, the stored keys, `PC` and the status become those of initialisation, the audio goes off, with the edge exactly if it was
on, the flag is cleared, the controls stand (a pending single-step request is read by the tick's budget), and the tick grants no
instruction; an instruction step leaves the request pending. Font in the memory read: log 7. -/
def Obligations.TickConsumesAReset : Prop :=
  (∀ s t : State, s.turn = .tick → s.shutdown = false → s.resetPending = true → step s = .next t →
    (∀ r, t.getV r = 0x00#8) ∧ t.i = 0x0000#16 ∧ t.sp = 0x00#8 ∧ (∀ k (h : k < 16), t.stack[k] = 0x0000#16) ∧
      t.dtSet = 0x00#8 ∧ t.stSet = 0x00#8 ∧ t.delayTimer = 0x00#8 ∧ t.soundTimer = 0x00#8 ∧
      (∀ a < 4096, readByte t.mem a =
        if 0x100 ≤ a ∧ a < 0x150 then fontTable.getD (a - 0x100) 0x00#8 else 0x00#8) ∧
      (∀ cx cy, pixel t.disp cx cy = false) ∧ (∀ k, t.keyDown k = false) ∧ t.pc = 0x0200#16 ∧ t.status = .normal ∧
      t.fetchWord = 0x0000#16 ∧
      t.audioOn = false ∧ t.audioEdge = (if s.audioOn = true then some .stop else none) ∧
      t.resetPending = false ∧ t.budget = 0 ∧ t.lastInstrTick = t.now ∧ s.now + Config.tickSleep.val ≤ t.now ∧
      t.clockHz = s.clockHz ∧ t.singleStepEn = s.singleStepEn ∧
      t.singleStepReq = (if s.singleStepEn = true then false else s.singleStepReq) ∧
      t.shutdown = s.shutdown ∧ t.runState = s.runState ∧ t.shiftUsesVy = s.shiftUsesVy) ∧
  (∀ s t : State, s.turn = .instr → step s = .next t → t.resetPending = s.resetPending)

/-- A tick with no reset pending (70_reset_and_hazards.md section 3, 60_exceptions.md sections 4 and 7; D18, D22, logs 18, 19): time passes,
at least TICK_SLEEP; the audio level becomes `ST > 0` with an edge exactly on a change; the budget is the floored product, gated by
single-step; the anchor moves exactly with a grant; nothing a program can reach changes. -/
def Obligations.TickEvaluatesAudioAndBudget : Prop :=
  ∀ s t : State, s.turn = .tick → s.shutdown = false → s.resetPending = false → step s = .next t →
    SameProgramState s t ∧ s.now + Config.tickSleep.val ≤ t.now ∧
    (t.audioOn = true ↔ 0 < (timerValue s.stSet s.stT0 t.now).toNat) ∧
    (t.audioEdge = some .start ↔ s.audioOn = false ∧ t.audioOn = true) ∧
    (t.audioEdge = some .stop ↔ s.audioOn = true ∧ t.audioOn = false) ∧
    (s.singleStepEn = false → t.budget = ⌊(t.now - s.lastInstrTick) * (s.clockHz : Rat)⌋₊ ∧
      t.singleStepReq = s.singleStepReq) ∧
    (s.singleStepEn = true → t.singleStepReq = false ∧
      (s.singleStepReq = true → t.budget = min 1 ⌊(t.now - s.lastInstrTick) * (s.clockHz : Rat)⌋₊) ∧
      (s.singleStepReq = false → t.budget = 0)) ∧
    t.lastInstrTick = (if 1 ≤ t.budget then t.now else s.lastInstrTick)

/-- Shutdown is observed at the top of a tick (60_exceptions.md section 8): from then on, with no move of the host, nothing happens; in
Idle nothing happens either (what a stopped driver's state reads as: log 21). -/
def Obligations.NothingRunsInIdleOrAfterShutdown : Prop :=
  ∀ (s : State) (k : Nat), s.hostQueue = [] → (s.runState = .idle ∨ (s.shutdown = true ∧ s.budget = 0)) →
    core.run k s = .next s

/-- What sets the driver's run state and controls (10_state.md section 5, 60_exceptions.md sections 7 and 8, 70_reset_and_hazards.md
section 1). Each host move is one step (log 17): a reset request, the single-step enable, the step request and the shutdown flag set
their flag and nothing else, a request already pending changing nothing; the start action takes Idle to Running with
`last_instr_tick` at its instant (D22, D24, logs 19, 20) and in Running does nothing. Nothing else writes them, except that a tick
clears a pending reset and, under single-step, the step request; no move takes Running back to Idle or clears shutdown (log 21). -/
def Obligations.HostMovesSetTheControls : Prop :=
  (∀ s : State,
    (s.hostQueue.head? = some .requestReset →
      step s = .next { s with hostQueue := s.hostQueue.tail, resetPending := true }) ∧
    (∀ on, s.hostQueue.head? = some (.setSingleStep on) →
      step s = .next { s with hostQueue := s.hostQueue.tail, singleStepEn := on }) ∧
    (s.hostQueue.head? = some .requestStep →
      step s = .next { s with hostQueue := s.hostQueue.tail, singleStepReq := true }) ∧
    (s.hostQueue.head? = some .shutdown →
      step s = .next { s with hostQueue := s.hostQueue.tail, shutdown := true }) ∧
    (s.hostQueue.head? = some .start → s.runState = .idle → ∃ now, s.now ≤ now ∧
      step s = .next { s with hostQueue := s.hostQueue.tail, runState := .running, now := now,
                              lastInstrTick := now, envCount := s.envCount + 1 }) ∧
    (s.hostQueue.head? = some .start → s.runState = .running →
      step s = .next { s with hostQueue := s.hostQueue.tail })) ∧
  ∀ s t : State, step s = .next t →
    (t.runState = s.runState ∨ (s.hostQueue.head? = some .start ∧ t.runState = .running)) ∧
    (t.shutdown = s.shutdown ∨ (s.hostQueue.head? = some .shutdown ∧ t.shutdown = true)) ∧
    (t.singleStepEn = s.singleStepEn ∨ s.hostQueue.head? = some (.setSingleStep t.singleStepEn)) ∧
    (t.singleStepReq = s.singleStepReq ∨ (s.hostQueue.head? = some .requestStep ∧ t.singleStepReq = true) ∨
      (s.turn = .tick ∧ s.shutdown = false ∧ s.singleStepEn = true ∧ t.singleStepReq = false)) ∧
    (t.resetPending = s.resetPending ∨ (s.hostQueue.head? = some .requestReset ∧ t.resetPending = true) ∨
      (s.turn = .tick ∧ s.shutdown = false ∧ t.resetPending = false))

/-- Program load (70_reset_and_hazards.md section 2; D19, log 17): a readable stream of at most 3584 bytes replaces the program region,
zero-filled, and nothing else; any other stream changes no state but the report. -/
def Obligations.ProgramLoad : Prop :=
  ∀ (s : State) (stream : Option (List Byte)),
    (∀ bs, stream = some bs → bs.length ≤ 3584 → ∃ m, s.hostMove (.load stream) =
        { s with mem := m, loadReport := some .success } ∧
      (∀ a, a < 512 → readByte m a = readByte s.mem a) ∧
      (∀ a, 512 ≤ a → a < 4096 → readByte m a = bs.getD (a - 512) 0x00#8)) ∧
    ((stream = none ∨ ∃ bs, stream = some bs ∧ 3584 < bs.length) →
      s.hostMove (.load stream) = { s with loadReport := some .failure })

/-- A clock-rate set is clamped into the bounds, takes effect at once and touches nothing else (70_reset_and_hazards.md section 3; clamping is
D24, log 19; the upper bound is OPEN, log 5). -/
def Obligations.ClockRateIsClamped : Prop :=
  ∀ (s : State) (hz : Int), ∃ f : Nat, s.hostMove (.setClock hz) = { s with clockHz := f } ∧ 1 ≤ f ∧ f ≤ clockHzMax ∧
    (1 ≤ hz → hz ≤ clockHzMax → (f : Int) = hz) ∧ (hz < 1 → f = 1) ∧ ((clockHzMax : Int) < hz → f = clockHzMax)

/-- R133: the renderer's copy is the whole display as it stands between two steps, and taking it changes nothing in the core. -/
def Obligations.DisplayCopyOut : Prop :=
  ∀ s : State, s.hostQueue.head? = some .copyDisplay →
    step s = .next { s with hostQueue := s.hostQueue.tail, frame := some s.disp }
end

