-- ==== Sys2Proof/Laws/Decode.lean ====
section
/-! SUPPORT. The fields of a composed word and the word composed of its fields (spec/30_encoding.md R46, R47). -/

namespace Sys2Proof

theorem fieldOp_wordXkk (op x kk) : fieldOp (wordXkk op x kk) = op := by
  apply BitVec.eq_of_getLsbD_eq
  intro i hi
  simp only [fieldOp, wordXkk, BitVec.getLsbD_append, BitVec.getLsbD_extractLsb']
  grind
theorem fieldX_wordXkk (op x kk) : fieldX (wordXkk op x kk) = x := by
  apply BitVec.eq_of_getLsbD_eq
  intro i hi
  simp only [fieldX, wordXkk, BitVec.getLsbD_append, BitVec.getLsbD_extractLsb']
  grind
theorem fieldKk_wordXkk (op x kk) : fieldKk (wordXkk op x kk) = kk := by
  apply BitVec.eq_of_getLsbD_eq
  intro i hi
  simp only [fieldKk, wordXkk, BitVec.getLsbD_append, BitVec.getLsbD_extractLsb']
  grind
theorem fieldOp_wordXyn (op x y n) : fieldOp (wordXyn op x y n) = op := by
  apply BitVec.eq_of_getLsbD_eq
  intro i hi
  simp only [fieldOp, wordXyn, BitVec.getLsbD_append, BitVec.getLsbD_extractLsb']
  grind
theorem fieldX_wordXyn (op x y n) : fieldX (wordXyn op x y n) = x := by
  apply BitVec.eq_of_getLsbD_eq
  intro i hi
  simp only [fieldX, wordXyn, BitVec.getLsbD_append, BitVec.getLsbD_extractLsb']
  grind
theorem fieldY_wordXyn (op x y n) : fieldY (wordXyn op x y n) = y := by
  apply BitVec.eq_of_getLsbD_eq
  intro i hi
  simp only [fieldY, wordXyn, BitVec.getLsbD_append, BitVec.getLsbD_extractLsb']
  grind
theorem fieldN_wordXyn (op x y n) : fieldN (wordXyn op x y n) = n := by
  apply BitVec.eq_of_getLsbD_eq
  intro i hi
  simp only [fieldN, wordXyn, BitVec.getLsbD_append, BitVec.getLsbD_extractLsb']
  grind
theorem fieldOp_wordNnn (op a) : fieldOp (wordNnn op a) = op := by
  apply BitVec.eq_of_getLsbD_eq
  intro i hi
  simp only [fieldOp, wordNnn, BitVec.getLsbD_append, BitVec.getLsbD_extractLsb']
  grind
theorem fieldNnn_wordNnn (op a) : fieldNnn (wordNnn op a) = a := by
  apply BitVec.eq_of_getLsbD_eq
  intro i hi
  simp only [fieldNnn, wordNnn, BitVec.getLsbD_append, BitVec.getLsbD_extractLsb']
  grind
theorem wordXkk_fields (w) : wordXkk (fieldOp w) (fieldX w) (fieldKk w) = w := by
  apply BitVec.eq_of_getLsbD_eq
  intro i hi
  simp only [fieldOp, fieldX, fieldKk, wordXkk, BitVec.getLsbD_append, BitVec.getLsbD_extractLsb']
  split
  · next h => simp [h]
  · split
    · next h h' => simp [h']; congr 1; omega
    · next h h' =>
      have : i - 8 - 4 < 4 := by omega
      simp [this]; congr 1; omega
theorem wordXyn_fields (w) : wordXyn (fieldOp w) (fieldX w) (fieldY w) (fieldN w) = w := by
  apply BitVec.eq_of_getLsbD_eq
  intro i hi
  simp only [fieldOp, fieldX, fieldY, fieldN, wordXyn, BitVec.getLsbD_append, BitVec.getLsbD_extractLsb']
  split
  · split
    · next h => simp [h]
    · next h h' =>
      have : i - 4 < 4 := by omega
      simp [this]; congr 1; omega
  · split
    · next h h' => simp [h']; congr 1; omega
    · next h h' =>
      have : i - 8 - 4 < 4 := by omega
      simp [this]; congr 1; omega
theorem wordNnn_fields (w) : wordNnn (fieldOp w) (fieldNnn w) = w := by
  apply BitVec.eq_of_getLsbD_eq
  intro i hi
  simp only [fieldOp, fieldNnn, wordNnn, BitVec.getLsbD_append, BitVec.getLsbD_extractLsb']
  split
  · next h => simp [h]
  · next h =>
    have : i - 12 < 4 := by omega
    simp [this]; congr 1; omega
theorem hi_lo (w : Word) : hiByte w ++ loByte w = w := by
  apply BitVec.eq_of_getLsbD_eq
  intro i hi
  simp only [hiByte, loByte, BitVec.getLsbD_append, BitVec.getLsbD_extractLsb']
  split
  · next h => simp [h]
  · next h =>
    have : i - 8 < 8 := by omega
    simp [this]; congr 1; omega

/-- A word of two bytes as a number: the high byte counts 256. -/
theorem toNat_append_bytes (hi lo : Byte) : (hi ++ lo : Word).toNat = 256 * hi.toNat + lo.toNat := by
  have := lo.isLt
  rw [BitVec.toNat_append, Nat.shiftLeft_eq, Nat.mul_comm, ← Nat.two_pow_add_eq_or_of_lt this]

theorem wordXkk_and (a b : BitVec 4) (x y : Reg) (k l : Byte) :
    wordXkk a x k &&& wordXkk b y l = wordXkk (a &&& b) (x &&& y) (k &&& l) := by
  apply BitVec.eq_of_getLsbD_eq
  intro i hi
  simp only [wordXkk, BitVec.getLsbD_and, BitVec.getLsbD_append]
  grind

theorem wordXyn_and (a b : BitVec 4) (x y k l : Reg) (m n : Nibble) :
    wordXyn a x k m &&& wordXyn b y l n = wordXyn (a &&& b) (x &&& y) (k &&& l) (m &&& n) := by
  apply BitVec.eq_of_getLsbD_eq
  intro i hi
  simp only [wordXyn, BitVec.getLsbD_and, BitVec.getLsbD_append]
  grind

theorem wordNnn_and (a b : BitVec 4) (x y : Addr12) :
    wordNnn a x &&& wordNnn b y = wordNnn (a &&& b) (x &&& y) := by
  apply BitVec.eq_of_getLsbD_eq
  intro i hi
  simp only [wordNnn, BitVec.getLsbD_and, BitVec.getLsbD_append]
  grind

/-- The mask of a format's opcode nibble keeps that nibble. -/
theorem wordNnn_mask (op : BitVec 4) (nnn : Addr12) : wordNnn op nnn &&& 0xF000#16 = wordNnn op 0x000#12 := by
  rw [show (0xF000#16) = wordNnn 0xF#4 0x000#12 from rfl, wordNnn_and, BitVec.and_zero,
    show (0xF#4) = BitVec.allOnes 4 from rfl, BitVec.and_allOnes]

theorem wordXkk_mask (op : BitVec 4) (x : Reg) (kk : Byte) :
    wordXkk op x kk &&& 0xF000#16 = wordXkk op 0x0#4 0x00#8 := by
  rw [show (0xF000#16) = wordXkk 0xF#4 0x0#4 0x00#8 from rfl, wordXkk_and, BitVec.and_zero, BitVec.and_zero,
    show (0xF#4) = BitVec.allOnes 4 from rfl, BitVec.and_allOnes]

theorem wordX_mask (op : BitVec 4) (x : Reg) (kk : Byte) :
    wordXkk op x kk &&& 0xF0FF#16 = wordXkk op 0x0#4 kk := by
  rw [show (0xF0FF#16) = wordXkk 0xF#4 0x0#4 0xFF#8 from rfl, wordXkk_and, BitVec.and_zero,
    show (0xF#4) = BitVec.allOnes 4 from rfl, show (0xFF#8) = BitVec.allOnes 8 from rfl, BitVec.and_allOnes,
    BitVec.and_allOnes]

theorem wordXy_mask (op : BitVec 4) (x y : Reg) (n : Nibble) :
    wordXyn op x y n &&& 0xF00F#16 = wordXyn op 0x0#4 0x0#4 n := by
  rw [show (0xF00F#16) = wordXyn 0xF#4 0x0#4 0x0#4 0xF#4 from rfl, wordXyn_and, BitVec.and_zero, BitVec.and_zero,
    show (0xF#4) = BitVec.allOnes 4 from rfl, BitVec.and_allOnes, BitVec.and_allOnes]

theorem wordXyn_mask (op : BitVec 4) (x y : Reg) (n : Nibble) :
    wordXyn op x y n &&& 0xF000#16 = wordXyn op 0x0#4 0x0#4 0x0#4 := by
  rw [show (0xF000#16) = wordXyn 0xF#4 0x0#4 0x0#4 0x0#4 from rfl, wordXyn_and, BitVec.and_zero, BitVec.and_zero,
    BitVec.and_zero, show (0xF#4) = BitVec.allOnes 4 from rfl, BitVec.and_allOnes]

end Sys2Proof
end

