-- ==== Sys2Proof/Laws/Memory.lean ====
section
/-! SUPPORT. Memory: reading after writing, and that every operation keeps the canonical form. -/

namespace Sys2Proof.Machine

theorem maskAddr_lt (a : Word) : maskAddr a < 4096 := Nat.mod_lt _ (by decide)

theorem eraseByte_cons (c : Host.Cell) (m : Memory) (a : Nat) :
    eraseByte (c :: m) a = if c.1 = a then eraseByte m a else c :: eraseByte m a := by
  by_cases h : c.1 = a <;> simp [eraseByte, h]

theorem readByte_eraseByte (m : Memory) (a x : Nat) :
    readByte (eraseByte m a) x = if x = a then initialByte a else readByte m x := by
  induction m with
  | nil => by_cases h : x = a <;> simp [eraseByte, readByte, h]
  | cons c rest ih =>
    rw [eraseByte_cons]
    by_cases hc : c.1 = a <;> by_cases hx : x = a
    · subst hx; simp [hc, ih]
    · simp [hc, hx, ih, readByte, Ne.symm hx]
    · subst hx; simp [hc, readByte, ih]
    · simp [hc, readByte, ih, hx]

theorem readByte_insertByte (m : Memory) (a x : Nat) (b : Byte) (h : ∀ c ∈ m, c.1 ≠ a) :
    readByte (insertByte m a b) x = if x = a then b else readByte m x := by
  induction m with
  | nil =>
    by_cases hx : x = a
    · simp [insertByte, readByte, hx]
    · simp [insertByte, readByte, hx, Ne.symm hx]
  | cons c rest ih =>
    have hc : c.1 ≠ a := h c (by simp)
    have ih := ih (fun d hd => h d (by simp [hd]))
    by_cases hlt : a < c.1 <;> by_cases hx : x = a
    · simp [insertByte, hlt, readByte, hx]
    · simp [insertByte, hlt, readByte, hx, Ne.symm hx]
    · subst hx; simp [insertByte, hlt, readByte, ih, hc]
    · simp [insertByte, hlt, readByte, ih, hx]

theorem eraseByte_ne (m : Memory) (a : Nat) : ∀ c ∈ eraseByte m a, c.1 ≠ a := by
  intro c hc; simpa [eraseByte] using (List.mem_filter.mp hc).2

theorem readByte_writeByte (m : Memory) (a x : Nat) (b : Byte) :
    readByte (writeByte m a b) x = if x = a then b else readByte m x := by
  unfold writeByte
  split
  · next h => rw [readByte_eraseByte, h]
  · rw [readByte_insertByte _ _ _ _ (eraseByte_ne m a), readByte_eraseByte]
    by_cases hx : x = a <;> simp [hx]

theorem eraseByte_wf {m : Memory} (h : Memory.wf m) (a : Nat) : Memory.wf (eraseByte m a) :=
  ⟨h.1.filter _, fun c hc => h.2 c (List.mem_filter.mp hc).1⟩

theorem mem_insertByte (m : Memory) (a : Nat) (b : Byte) (c : Host.Cell) :
    c ∈ insertByte m a b ↔ c = (a, b) ∨ c ∈ m := by
  induction m with
  | nil => simp [insertByte]
  | cons d rest ih =>
    by_cases hlt : a < d.1
    · simp [insertByte, hlt]
    · simp [insertByte, hlt, ih]; tauto

theorem insertByte_wf {m : Memory} (h : Memory.wf m) {a : Nat} {b : Byte} (ha : a < 4096)
    (hb : b ≠ initialByte a) (hne : ∀ c ∈ m, c.1 ≠ a) : Memory.wf (insertByte m a b) := by
  refine ⟨?_, fun c hc => ?_⟩
  · have hp := h.1
    clear h
    induction m with
    | nil => simp [insertByte]
    | cons d rest ih =>
      have hd : d.1 ≠ a := hne d (by simp)
      rw [List.pairwise_cons] at hp
      by_cases hlt : a < d.1
      · simp only [insertByte, hlt, if_true, List.pairwise_cons]
        refine ⟨fun c hc => ?_, hp⟩
        rcases List.mem_cons.mp hc with rfl | hc
        · exact hlt
        · exact lt_trans hlt (hp.1 c hc)
      · simp only [insertByte, hlt, if_false, List.pairwise_cons]
        refine ⟨fun c hc => ?_, ih (fun c hc => hne c (by simp [hc])) hp.2⟩
        rcases (mem_insertByte _ _ _ _).mp hc with rfl | hc
        · show d.1 < a; omega
        · exact hp.1 c hc
  · rcases (mem_insertByte _ _ _ _).mp hc with rfl | hc
    · exact ⟨ha, hb⟩
    · exact h.2 c hc

theorem writeByte_wf {m : Memory} (h : Memory.wf m) {a : Nat} (ha : a < 4096) (b : Byte) :
    Memory.wf (writeByte m a b) := by
  unfold writeByte
  split
  · exact eraseByte_wf h a
  · next hb => exact insertByte_wf (eraseByte_wf h a) ha hb (eraseByte_ne m a)

theorem writeBytes_wf {m : Memory} (h : Memory.wf m) (a : Word) (bs : List Byte) :
    Memory.wf (writeBytes m a bs) := by
  induction bs generalizing m a with
  | nil => exact h
  | cons b rest ih => exact ih (writeByte_wf h (maskAddr_lt a) b) _

/-- The masked address of byte `k` of a run of bytes. -/
theorem maskAddr_add (a : Word) (k : Nat) :
    maskAddr (a + BitVec.ofNat 16 k) = (a.toNat + k) % 4096 := by
  simp [maskAddr, BitVec.toNat_add, BitVec.toNat_ofNat]

theorem readByte_writeBytes_other (m : Memory) (a : Word) (bs : List Byte) (x : Nat)
    (h : ∀ k < bs.length, x ≠ maskAddr (a + BitVec.ofNat 16 k)) :
    readByte (writeBytes m a bs) x = readByte m x := by
  induction bs generalizing m a with
  | nil => rfl
  | cons b rest ih =>
    have h0 : x ≠ maskAddr a := by simpa using h 0 (by simp)
    rw [writeBytes, ih, readByte_writeByte, if_neg h0]
    intro k hk
    have := h (k + 1) (by simpa using hk)
    rw [maskAddr_add] at this ⊢
    simp only [BitVec.toNat_add, BitVec.toNat_ofNat]; omega

theorem readByte_writeBytes_at (m : Memory) (a : Word) (bs : List Byte) (hl : bs.length ≤ 4096)
    (k : Nat) (hk : k < bs.length) :
    readByte (writeBytes m a bs) (maskAddr (a + BitVec.ofNat 16 k)) = bs[k] := by
  induction bs generalizing m a k with
  | nil => simp at hk
  | cons b rest ih =>
    simp only [List.length_cons] at hl hk
    cases k with
    | zero =>
      rw [writeBytes, readByte_writeBytes_other, readByte_writeByte]
      · simp
      · intro j hj
        simp only [maskAddr_add, BitVec.toNat_add, BitVec.toNat_ofNat]; omega
    | succ k =>
      have := ih (writeByte m (maskAddr a) b) (a + 1#16) (by omega) k (by omega)
      rw [writeBytes, List.getElem_cons_succ, ← this]
      congr 1
      simp only [maskAddr_add, BitVec.toNat_add, BitVec.toNat_ofNat]; omega

theorem clearProgram_cons (c : Host.Cell) (m : Memory) :
    clearProgram (c :: m) = if c.1 < 512 then c :: clearProgram m else clearProgram m := by
  by_cases h : c.1 < 512 <;> simp [clearProgram, h]

theorem readByte_clearProgram (m : Memory) (x : Nat) :
    readByte (clearProgram m) x = if x < 512 then readByte m x else initialByte x := by
  induction m with
  | nil => simp [clearProgram, readByte]
  | cons c rest ih =>
    rw [clearProgram_cons]
    by_cases hc : c.1 < 512 <;> by_cases hx : c.1 = x
    · have : x < 512 := hx ▸ hc
      simp [readByte, hx, this]
    · simp [hc, readByte, hx, ih]
    · have : ¬ x < 512 := hx ▸ hc
      simp [hx, ih, this]
    · simp [hc, readByte, hx, ih]

theorem clearProgram_wf {m : Memory} (h : Memory.wf m) : Memory.wf (clearProgram m) :=
  ⟨h.1.filter _, fun c hc => h.2 c (List.mem_filter.mp hc).1⟩

theorem nil_wf : Memory.wf [] := ⟨List.Pairwise.nil, by simp⟩

theorem initialByte_program (a : Nat) (h : 512 ≤ a) : initialByte a = 0x00#8 := by
  have : fontTable.length ≤ a - fontBase := by simp only [fontBase]; exact le_trans (by decide) (Nat.sub_le_sub_right h 256)
  simp [initialByte, List.getD_eq_getElem?_getD, List.getElem?_eq_none this]

end Sys2Proof.Machine
end

