-- ==== Sys2Proof/Laws/State.lean ====
section
/-! SUPPORT. One lemma per field per update of State, each true by unfolding the update once, so that no later proof
unfolds a record update. -/

namespace Sys2Proof.Machine

variable (s : State)

/-! ### setV -/

@[simp] theorem State.setV_v (x : Reg) (b : Byte) : (s.setV x b).v = s.v.set x.toNat b x.isLt := rfl
@[simp] theorem State.setV_i (x : Reg) (b : Byte) : (s.setV x b).i = s.i := rfl
@[simp] theorem State.setV_pc (x : Reg) (b : Byte) : (s.setV x b).pc = s.pc := rfl
@[simp] theorem State.setV_sp (x : Reg) (b : Byte) : (s.setV x b).sp = s.sp := rfl
@[simp] theorem State.setV_stack (x : Reg) (b : Byte) : (s.setV x b).stack = s.stack := rfl
@[simp] theorem State.setV_dtSet (x : Reg) (b : Byte) : (s.setV x b).dtSet = s.dtSet := rfl
@[simp] theorem State.setV_dtT0 (x : Reg) (b : Byte) : (s.setV x b).dtT0 = s.dtT0 := rfl
@[simp] theorem State.setV_stSet (x : Reg) (b : Byte) : (s.setV x b).stSet = s.stSet := rfl
@[simp] theorem State.setV_stT0 (x : Reg) (b : Byte) : (s.setV x b).stT0 = s.stT0 := rfl
@[simp] theorem State.setV_mem (x : Reg) (b : Byte) : (s.setV x b).mem = s.mem := rfl
@[simp] theorem State.setV_disp (x : Reg) (b : Byte) : (s.setV x b).disp = s.disp := rfl
@[simp] theorem State.setV_keys (x : Reg) (b : Byte) : (s.setV x b).keys = s.keys := rfl
@[simp] theorem State.setV_shiftUsesVy (x : Reg) (b : Byte) : (s.setV x b).shiftUsesVy = s.shiftUsesVy := rfl
@[simp] theorem State.setV_now (x : Reg) (b : Byte) : (s.setV x b).now = s.now := rfl
@[simp] theorem State.setV_rand (x : Reg) (b : Byte) : (s.setV x b).rand = s.rand := rfl
@[simp] theorem State.setV_envCount (x : Reg) (b : Byte) : (s.setV x b).envCount = s.envCount := rfl
@[simp] theorem State.setV_runState (x : Reg) (b : Byte) : (s.setV x b).runState = s.runState := rfl
@[simp] theorem State.setV_resetPending (x : Reg) (b : Byte) : (s.setV x b).resetPending = s.resetPending := rfl
@[simp] theorem State.setV_clockHz (x : Reg) (b : Byte) : (s.setV x b).clockHz = s.clockHz := rfl
@[simp] theorem State.setV_singleStepEn (x : Reg) (b : Byte) : (s.setV x b).singleStepEn = s.singleStepEn := rfl
@[simp] theorem State.setV_singleStepReq (x : Reg) (b : Byte) : (s.setV x b).singleStepReq = s.singleStepReq := rfl
@[simp] theorem State.setV_shutdown (x : Reg) (b : Byte) : (s.setV x b).shutdown = s.shutdown := rfl
@[simp] theorem State.setV_lastInstrTick (x : Reg) (b : Byte) : (s.setV x b).lastInstrTick = s.lastInstrTick := rfl
@[simp] theorem State.setV_budget (x : Reg) (b : Byte) : (s.setV x b).budget = s.budget := rfl
@[simp] theorem State.setV_audioOn (x : Reg) (b : Byte) : (s.setV x b).audioOn = s.audioOn := rfl
@[simp] theorem State.setV_audioEdge (x : Reg) (b : Byte) : (s.setV x b).audioEdge = s.audioEdge := rfl
@[simp] theorem State.setV_status (x : Reg) (b : Byte) : (s.setV x b).status = s.status := rfl
@[simp] theorem State.setV_outcome (x : Reg) (b : Byte) : (s.setV x b).outcome = s.outcome := rfl
@[simp] theorem State.setV_snapshot (x : Reg) (b : Byte) : (s.setV x b).snapshot = s.snapshot := rfl
@[simp] theorem State.setV_hostQueue (x : Reg) (b : Byte) : (s.setV x b).hostQueue = s.hostQueue := rfl
@[simp] theorem State.setV_loadReport (x : Reg) (b : Byte) : (s.setV x b).loadReport = s.loadReport := rfl
@[simp] theorem State.setV_frame (x : Reg) (b : Byte) : (s.setV x b).frame = s.frame := rfl

/-! ### setI -/

@[simp] theorem State.setI_v (a : Word) : (s.setI a).v = s.v := rfl
@[simp] theorem State.setI_i (a : Word) : (s.setI a).i = a := rfl
@[simp] theorem State.setI_pc (a : Word) : (s.setI a).pc = s.pc := rfl
@[simp] theorem State.setI_sp (a : Word) : (s.setI a).sp = s.sp := rfl
@[simp] theorem State.setI_stack (a : Word) : (s.setI a).stack = s.stack := rfl
@[simp] theorem State.setI_dtSet (a : Word) : (s.setI a).dtSet = s.dtSet := rfl
@[simp] theorem State.setI_dtT0 (a : Word) : (s.setI a).dtT0 = s.dtT0 := rfl
@[simp] theorem State.setI_stSet (a : Word) : (s.setI a).stSet = s.stSet := rfl
@[simp] theorem State.setI_stT0 (a : Word) : (s.setI a).stT0 = s.stT0 := rfl
@[simp] theorem State.setI_mem (a : Word) : (s.setI a).mem = s.mem := rfl
@[simp] theorem State.setI_disp (a : Word) : (s.setI a).disp = s.disp := rfl
@[simp] theorem State.setI_keys (a : Word) : (s.setI a).keys = s.keys := rfl
@[simp] theorem State.setI_shiftUsesVy (a : Word) : (s.setI a).shiftUsesVy = s.shiftUsesVy := rfl
@[simp] theorem State.setI_now (a : Word) : (s.setI a).now = s.now := rfl
@[simp] theorem State.setI_rand (a : Word) : (s.setI a).rand = s.rand := rfl
@[simp] theorem State.setI_envCount (a : Word) : (s.setI a).envCount = s.envCount := rfl
@[simp] theorem State.setI_runState (a : Word) : (s.setI a).runState = s.runState := rfl
@[simp] theorem State.setI_resetPending (a : Word) : (s.setI a).resetPending = s.resetPending := rfl
@[simp] theorem State.setI_clockHz (a : Word) : (s.setI a).clockHz = s.clockHz := rfl
@[simp] theorem State.setI_singleStepEn (a : Word) : (s.setI a).singleStepEn = s.singleStepEn := rfl
@[simp] theorem State.setI_singleStepReq (a : Word) : (s.setI a).singleStepReq = s.singleStepReq := rfl
@[simp] theorem State.setI_shutdown (a : Word) : (s.setI a).shutdown = s.shutdown := rfl
@[simp] theorem State.setI_lastInstrTick (a : Word) : (s.setI a).lastInstrTick = s.lastInstrTick := rfl
@[simp] theorem State.setI_budget (a : Word) : (s.setI a).budget = s.budget := rfl
@[simp] theorem State.setI_audioOn (a : Word) : (s.setI a).audioOn = s.audioOn := rfl
@[simp] theorem State.setI_audioEdge (a : Word) : (s.setI a).audioEdge = s.audioEdge := rfl
@[simp] theorem State.setI_status (a : Word) : (s.setI a).status = s.status := rfl
@[simp] theorem State.setI_outcome (a : Word) : (s.setI a).outcome = s.outcome := rfl
@[simp] theorem State.setI_snapshot (a : Word) : (s.setI a).snapshot = s.snapshot := rfl
@[simp] theorem State.setI_hostQueue (a : Word) : (s.setI a).hostQueue = s.hostQueue := rfl
@[simp] theorem State.setI_loadReport (a : Word) : (s.setI a).loadReport = s.loadReport := rfl
@[simp] theorem State.setI_frame (a : Word) : (s.setI a).frame = s.frame := rfl

/-! ### setPc -/

@[simp] theorem State.setPc_v (a : Word) : (s.setPc a).v = s.v := rfl
@[simp] theorem State.setPc_i (a : Word) : (s.setPc a).i = s.i := rfl
@[simp] theorem State.setPc_pc (a : Word) : (s.setPc a).pc = a := rfl
@[simp] theorem State.setPc_sp (a : Word) : (s.setPc a).sp = s.sp := rfl
@[simp] theorem State.setPc_stack (a : Word) : (s.setPc a).stack = s.stack := rfl
@[simp] theorem State.setPc_dtSet (a : Word) : (s.setPc a).dtSet = s.dtSet := rfl
@[simp] theorem State.setPc_dtT0 (a : Word) : (s.setPc a).dtT0 = s.dtT0 := rfl
@[simp] theorem State.setPc_stSet (a : Word) : (s.setPc a).stSet = s.stSet := rfl
@[simp] theorem State.setPc_stT0 (a : Word) : (s.setPc a).stT0 = s.stT0 := rfl
@[simp] theorem State.setPc_mem (a : Word) : (s.setPc a).mem = s.mem := rfl
@[simp] theorem State.setPc_disp (a : Word) : (s.setPc a).disp = s.disp := rfl
@[simp] theorem State.setPc_keys (a : Word) : (s.setPc a).keys = s.keys := rfl
@[simp] theorem State.setPc_shiftUsesVy (a : Word) : (s.setPc a).shiftUsesVy = s.shiftUsesVy := rfl
@[simp] theorem State.setPc_now (a : Word) : (s.setPc a).now = s.now := rfl
@[simp] theorem State.setPc_rand (a : Word) : (s.setPc a).rand = s.rand := rfl
@[simp] theorem State.setPc_envCount (a : Word) : (s.setPc a).envCount = s.envCount := rfl
@[simp] theorem State.setPc_runState (a : Word) : (s.setPc a).runState = s.runState := rfl
@[simp] theorem State.setPc_resetPending (a : Word) : (s.setPc a).resetPending = s.resetPending := rfl
@[simp] theorem State.setPc_clockHz (a : Word) : (s.setPc a).clockHz = s.clockHz := rfl
@[simp] theorem State.setPc_singleStepEn (a : Word) : (s.setPc a).singleStepEn = s.singleStepEn := rfl
@[simp] theorem State.setPc_singleStepReq (a : Word) : (s.setPc a).singleStepReq = s.singleStepReq := rfl
@[simp] theorem State.setPc_shutdown (a : Word) : (s.setPc a).shutdown = s.shutdown := rfl
@[simp] theorem State.setPc_lastInstrTick (a : Word) : (s.setPc a).lastInstrTick = s.lastInstrTick := rfl
@[simp] theorem State.setPc_budget (a : Word) : (s.setPc a).budget = s.budget := rfl
@[simp] theorem State.setPc_audioOn (a : Word) : (s.setPc a).audioOn = s.audioOn := rfl
@[simp] theorem State.setPc_audioEdge (a : Word) : (s.setPc a).audioEdge = s.audioEdge := rfl
@[simp] theorem State.setPc_status (a : Word) : (s.setPc a).status = s.status := rfl
@[simp] theorem State.setPc_outcome (a : Word) : (s.setPc a).outcome = s.outcome := rfl
@[simp] theorem State.setPc_snapshot (a : Word) : (s.setPc a).snapshot = s.snapshot := rfl
@[simp] theorem State.setPc_hostQueue (a : Word) : (s.setPc a).hostQueue = s.hostQueue := rfl
@[simp] theorem State.setPc_loadReport (a : Word) : (s.setPc a).loadReport = s.loadReport := rfl
@[simp] theorem State.setPc_frame (a : Word) : (s.setPc a).frame = s.frame := rfl

/-! ### push -/

@[simp] theorem State.push_v (a : Word) : (s.push a).v = s.v := rfl
@[simp] theorem State.push_i (a : Word) : (s.push a).i = s.i := rfl
@[simp] theorem State.push_pc (a : Word) : (s.push a).pc = s.pc := rfl
@[simp] theorem State.push_sp (a : Word) : (s.push a).sp = s.sp + 1#8 := rfl
@[simp] theorem State.push_dtSet (a : Word) : (s.push a).dtSet = s.dtSet := rfl
@[simp] theorem State.push_dtT0 (a : Word) : (s.push a).dtT0 = s.dtT0 := rfl
@[simp] theorem State.push_stSet (a : Word) : (s.push a).stSet = s.stSet := rfl
@[simp] theorem State.push_stT0 (a : Word) : (s.push a).stT0 = s.stT0 := rfl
@[simp] theorem State.push_mem (a : Word) : (s.push a).mem = s.mem := rfl
@[simp] theorem State.push_disp (a : Word) : (s.push a).disp = s.disp := rfl
@[simp] theorem State.push_keys (a : Word) : (s.push a).keys = s.keys := rfl
@[simp] theorem State.push_shiftUsesVy (a : Word) : (s.push a).shiftUsesVy = s.shiftUsesVy := rfl
@[simp] theorem State.push_now (a : Word) : (s.push a).now = s.now := rfl
@[simp] theorem State.push_rand (a : Word) : (s.push a).rand = s.rand := rfl
@[simp] theorem State.push_envCount (a : Word) : (s.push a).envCount = s.envCount := rfl
@[simp] theorem State.push_runState (a : Word) : (s.push a).runState = s.runState := rfl
@[simp] theorem State.push_resetPending (a : Word) : (s.push a).resetPending = s.resetPending := rfl
@[simp] theorem State.push_clockHz (a : Word) : (s.push a).clockHz = s.clockHz := rfl
@[simp] theorem State.push_singleStepEn (a : Word) : (s.push a).singleStepEn = s.singleStepEn := rfl
@[simp] theorem State.push_singleStepReq (a : Word) : (s.push a).singleStepReq = s.singleStepReq := rfl
@[simp] theorem State.push_shutdown (a : Word) : (s.push a).shutdown = s.shutdown := rfl
@[simp] theorem State.push_lastInstrTick (a : Word) : (s.push a).lastInstrTick = s.lastInstrTick := rfl
@[simp] theorem State.push_budget (a : Word) : (s.push a).budget = s.budget := rfl
@[simp] theorem State.push_audioOn (a : Word) : (s.push a).audioOn = s.audioOn := rfl
@[simp] theorem State.push_audioEdge (a : Word) : (s.push a).audioEdge = s.audioEdge := rfl
@[simp] theorem State.push_status (a : Word) : (s.push a).status = s.status := rfl
@[simp] theorem State.push_outcome (a : Word) : (s.push a).outcome = s.outcome := rfl
@[simp] theorem State.push_snapshot (a : Word) : (s.push a).snapshot = s.snapshot := rfl
@[simp] theorem State.push_hostQueue (a : Word) : (s.push a).hostQueue = s.hostQueue := rfl
@[simp] theorem State.push_loadReport (a : Word) : (s.push a).loadReport = s.loadReport := rfl
@[simp] theorem State.push_frame (a : Word) : (s.push a).frame = s.frame := rfl

/-! ### pop -/

@[simp] theorem State.pop_v : (s.pop).v = s.v := rfl
@[simp] theorem State.pop_i : (s.pop).i = s.i := rfl
@[simp] theorem State.pop_pc : (s.pop).pc = s.stackTop := rfl
@[simp] theorem State.pop_sp : (s.pop).sp = s.sp - 1#8 := rfl
@[simp] theorem State.pop_stack : (s.pop).stack = s.stack := rfl
@[simp] theorem State.pop_dtSet : (s.pop).dtSet = s.dtSet := rfl
@[simp] theorem State.pop_dtT0 : (s.pop).dtT0 = s.dtT0 := rfl
@[simp] theorem State.pop_stSet : (s.pop).stSet = s.stSet := rfl
@[simp] theorem State.pop_stT0 : (s.pop).stT0 = s.stT0 := rfl
@[simp] theorem State.pop_mem : (s.pop).mem = s.mem := rfl
@[simp] theorem State.pop_disp : (s.pop).disp = s.disp := rfl
@[simp] theorem State.pop_keys : (s.pop).keys = s.keys := rfl
@[simp] theorem State.pop_shiftUsesVy : (s.pop).shiftUsesVy = s.shiftUsesVy := rfl
@[simp] theorem State.pop_now : (s.pop).now = s.now := rfl
@[simp] theorem State.pop_rand : (s.pop).rand = s.rand := rfl
@[simp] theorem State.pop_envCount : (s.pop).envCount = s.envCount := rfl
@[simp] theorem State.pop_runState : (s.pop).runState = s.runState := rfl
@[simp] theorem State.pop_resetPending : (s.pop).resetPending = s.resetPending := rfl
@[simp] theorem State.pop_clockHz : (s.pop).clockHz = s.clockHz := rfl
@[simp] theorem State.pop_singleStepEn : (s.pop).singleStepEn = s.singleStepEn := rfl
@[simp] theorem State.pop_singleStepReq : (s.pop).singleStepReq = s.singleStepReq := rfl
@[simp] theorem State.pop_shutdown : (s.pop).shutdown = s.shutdown := rfl
@[simp] theorem State.pop_lastInstrTick : (s.pop).lastInstrTick = s.lastInstrTick := rfl
@[simp] theorem State.pop_budget : (s.pop).budget = s.budget := rfl
@[simp] theorem State.pop_audioOn : (s.pop).audioOn = s.audioOn := rfl
@[simp] theorem State.pop_audioEdge : (s.pop).audioEdge = s.audioEdge := rfl
@[simp] theorem State.pop_status : (s.pop).status = s.status := rfl
@[simp] theorem State.pop_outcome : (s.pop).outcome = s.outcome := rfl
@[simp] theorem State.pop_snapshot : (s.pop).snapshot = s.snapshot := rfl
@[simp] theorem State.pop_hostQueue : (s.pop).hostQueue = s.hostQueue := rfl
@[simp] theorem State.pop_loadReport : (s.pop).loadReport = s.loadReport := rfl
@[simp] theorem State.pop_frame : (s.pop).frame = s.frame := rfl

/-! ### setDt -/

@[simp] theorem State.setDt_v (b : Byte) : (s.setDt b).v = s.v := rfl
@[simp] theorem State.setDt_i (b : Byte) : (s.setDt b).i = s.i := rfl
@[simp] theorem State.setDt_pc (b : Byte) : (s.setDt b).pc = s.pc := rfl
@[simp] theorem State.setDt_sp (b : Byte) : (s.setDt b).sp = s.sp := rfl
@[simp] theorem State.setDt_stack (b : Byte) : (s.setDt b).stack = s.stack := rfl
@[simp] theorem State.setDt_dtSet (b : Byte) : (s.setDt b).dtSet = b := rfl
@[simp] theorem State.setDt_dtT0 (b : Byte) : (s.setDt b).dtT0 = s.now := rfl
@[simp] theorem State.setDt_stSet (b : Byte) : (s.setDt b).stSet = s.stSet := rfl
@[simp] theorem State.setDt_stT0 (b : Byte) : (s.setDt b).stT0 = s.stT0 := rfl
@[simp] theorem State.setDt_mem (b : Byte) : (s.setDt b).mem = s.mem := rfl
@[simp] theorem State.setDt_disp (b : Byte) : (s.setDt b).disp = s.disp := rfl
@[simp] theorem State.setDt_keys (b : Byte) : (s.setDt b).keys = s.keys := rfl
@[simp] theorem State.setDt_shiftUsesVy (b : Byte) : (s.setDt b).shiftUsesVy = s.shiftUsesVy := rfl
@[simp] theorem State.setDt_now (b : Byte) : (s.setDt b).now = s.now := rfl
@[simp] theorem State.setDt_rand (b : Byte) : (s.setDt b).rand = s.rand := rfl
@[simp] theorem State.setDt_envCount (b : Byte) : (s.setDt b).envCount = s.envCount := rfl
@[simp] theorem State.setDt_runState (b : Byte) : (s.setDt b).runState = s.runState := rfl
@[simp] theorem State.setDt_resetPending (b : Byte) : (s.setDt b).resetPending = s.resetPending := rfl
@[simp] theorem State.setDt_clockHz (b : Byte) : (s.setDt b).clockHz = s.clockHz := rfl
@[simp] theorem State.setDt_singleStepEn (b : Byte) : (s.setDt b).singleStepEn = s.singleStepEn := rfl
@[simp] theorem State.setDt_singleStepReq (b : Byte) : (s.setDt b).singleStepReq = s.singleStepReq := rfl
@[simp] theorem State.setDt_shutdown (b : Byte) : (s.setDt b).shutdown = s.shutdown := rfl
@[simp] theorem State.setDt_lastInstrTick (b : Byte) : (s.setDt b).lastInstrTick = s.lastInstrTick := rfl
@[simp] theorem State.setDt_budget (b : Byte) : (s.setDt b).budget = s.budget := rfl
@[simp] theorem State.setDt_audioOn (b : Byte) : (s.setDt b).audioOn = s.audioOn := rfl
@[simp] theorem State.setDt_audioEdge (b : Byte) : (s.setDt b).audioEdge = s.audioEdge := rfl
@[simp] theorem State.setDt_status (b : Byte) : (s.setDt b).status = s.status := rfl
@[simp] theorem State.setDt_outcome (b : Byte) : (s.setDt b).outcome = s.outcome := rfl
@[simp] theorem State.setDt_snapshot (b : Byte) : (s.setDt b).snapshot = s.snapshot := rfl
@[simp] theorem State.setDt_hostQueue (b : Byte) : (s.setDt b).hostQueue = s.hostQueue := rfl
@[simp] theorem State.setDt_loadReport (b : Byte) : (s.setDt b).loadReport = s.loadReport := rfl
@[simp] theorem State.setDt_frame (b : Byte) : (s.setDt b).frame = s.frame := rfl

/-! ### setSt -/

@[simp] theorem State.setSt_v (b : Byte) : (s.setSt b).v = s.v := rfl
@[simp] theorem State.setSt_i (b : Byte) : (s.setSt b).i = s.i := rfl
@[simp] theorem State.setSt_pc (b : Byte) : (s.setSt b).pc = s.pc := rfl
@[simp] theorem State.setSt_sp (b : Byte) : (s.setSt b).sp = s.sp := rfl
@[simp] theorem State.setSt_stack (b : Byte) : (s.setSt b).stack = s.stack := rfl
@[simp] theorem State.setSt_dtSet (b : Byte) : (s.setSt b).dtSet = s.dtSet := rfl
@[simp] theorem State.setSt_dtT0 (b : Byte) : (s.setSt b).dtT0 = s.dtT0 := rfl
@[simp] theorem State.setSt_stSet (b : Byte) : (s.setSt b).stSet = b := rfl
@[simp] theorem State.setSt_stT0 (b : Byte) : (s.setSt b).stT0 = s.now := rfl
@[simp] theorem State.setSt_mem (b : Byte) : (s.setSt b).mem = s.mem := rfl
@[simp] theorem State.setSt_disp (b : Byte) : (s.setSt b).disp = s.disp := rfl
@[simp] theorem State.setSt_keys (b : Byte) : (s.setSt b).keys = s.keys := rfl
@[simp] theorem State.setSt_shiftUsesVy (b : Byte) : (s.setSt b).shiftUsesVy = s.shiftUsesVy := rfl
@[simp] theorem State.setSt_now (b : Byte) : (s.setSt b).now = s.now := rfl
@[simp] theorem State.setSt_rand (b : Byte) : (s.setSt b).rand = s.rand := rfl
@[simp] theorem State.setSt_envCount (b : Byte) : (s.setSt b).envCount = s.envCount := rfl
@[simp] theorem State.setSt_runState (b : Byte) : (s.setSt b).runState = s.runState := rfl
@[simp] theorem State.setSt_resetPending (b : Byte) : (s.setSt b).resetPending = s.resetPending := rfl
@[simp] theorem State.setSt_clockHz (b : Byte) : (s.setSt b).clockHz = s.clockHz := rfl
@[simp] theorem State.setSt_singleStepEn (b : Byte) : (s.setSt b).singleStepEn = s.singleStepEn := rfl
@[simp] theorem State.setSt_singleStepReq (b : Byte) : (s.setSt b).singleStepReq = s.singleStepReq := rfl
@[simp] theorem State.setSt_shutdown (b : Byte) : (s.setSt b).shutdown = s.shutdown := rfl
@[simp] theorem State.setSt_lastInstrTick (b : Byte) : (s.setSt b).lastInstrTick = s.lastInstrTick := rfl
@[simp] theorem State.setSt_budget (b : Byte) : (s.setSt b).budget = s.budget := rfl
@[simp] theorem State.setSt_audioOn (b : Byte) : (s.setSt b).audioOn = s.audioOn := rfl
@[simp] theorem State.setSt_audioEdge (b : Byte) : (s.setSt b).audioEdge = s.audioEdge := rfl
@[simp] theorem State.setSt_status (b : Byte) : (s.setSt b).status = s.status := rfl
@[simp] theorem State.setSt_outcome (b : Byte) : (s.setSt b).outcome = s.outcome := rfl
@[simp] theorem State.setSt_snapshot (b : Byte) : (s.setSt b).snapshot = s.snapshot := rfl
@[simp] theorem State.setSt_hostQueue (b : Byte) : (s.setSt b).hostQueue = s.hostQueue := rfl
@[simp] theorem State.setSt_loadReport (b : Byte) : (s.setSt b).loadReport = s.loadReport := rfl
@[simp] theorem State.setSt_frame (b : Byte) : (s.setSt b).frame = s.frame := rfl

/-! ### setDisp -/

@[simp] theorem State.setDisp_v (d : Display) : (s.setDisp d).v = s.v := rfl
@[simp] theorem State.setDisp_i (d : Display) : (s.setDisp d).i = s.i := rfl
@[simp] theorem State.setDisp_pc (d : Display) : (s.setDisp d).pc = s.pc := rfl
@[simp] theorem State.setDisp_sp (d : Display) : (s.setDisp d).sp = s.sp := rfl
@[simp] theorem State.setDisp_stack (d : Display) : (s.setDisp d).stack = s.stack := rfl
@[simp] theorem State.setDisp_dtSet (d : Display) : (s.setDisp d).dtSet = s.dtSet := rfl
@[simp] theorem State.setDisp_dtT0 (d : Display) : (s.setDisp d).dtT0 = s.dtT0 := rfl
@[simp] theorem State.setDisp_stSet (d : Display) : (s.setDisp d).stSet = s.stSet := rfl
@[simp] theorem State.setDisp_stT0 (d : Display) : (s.setDisp d).stT0 = s.stT0 := rfl
@[simp] theorem State.setDisp_mem (d : Display) : (s.setDisp d).mem = s.mem := rfl
@[simp] theorem State.setDisp_disp (d : Display) : (s.setDisp d).disp = d := rfl
@[simp] theorem State.setDisp_keys (d : Display) : (s.setDisp d).keys = s.keys := rfl
@[simp] theorem State.setDisp_shiftUsesVy (d : Display) : (s.setDisp d).shiftUsesVy = s.shiftUsesVy := rfl
@[simp] theorem State.setDisp_now (d : Display) : (s.setDisp d).now = s.now := rfl
@[simp] theorem State.setDisp_rand (d : Display) : (s.setDisp d).rand = s.rand := rfl
@[simp] theorem State.setDisp_envCount (d : Display) : (s.setDisp d).envCount = s.envCount := rfl
@[simp] theorem State.setDisp_runState (d : Display) : (s.setDisp d).runState = s.runState := rfl
@[simp] theorem State.setDisp_resetPending (d : Display) : (s.setDisp d).resetPending = s.resetPending := rfl
@[simp] theorem State.setDisp_clockHz (d : Display) : (s.setDisp d).clockHz = s.clockHz := rfl
@[simp] theorem State.setDisp_singleStepEn (d : Display) : (s.setDisp d).singleStepEn = s.singleStepEn := rfl
@[simp] theorem State.setDisp_singleStepReq (d : Display) : (s.setDisp d).singleStepReq = s.singleStepReq := rfl
@[simp] theorem State.setDisp_shutdown (d : Display) : (s.setDisp d).shutdown = s.shutdown := rfl
@[simp] theorem State.setDisp_lastInstrTick (d : Display) : (s.setDisp d).lastInstrTick = s.lastInstrTick := rfl
@[simp] theorem State.setDisp_budget (d : Display) : (s.setDisp d).budget = s.budget := rfl
@[simp] theorem State.setDisp_audioOn (d : Display) : (s.setDisp d).audioOn = s.audioOn := rfl
@[simp] theorem State.setDisp_audioEdge (d : Display) : (s.setDisp d).audioEdge = s.audioEdge := rfl
@[simp] theorem State.setDisp_status (d : Display) : (s.setDisp d).status = s.status := rfl
@[simp] theorem State.setDisp_outcome (d : Display) : (s.setDisp d).outcome = s.outcome := rfl
@[simp] theorem State.setDisp_snapshot (d : Display) : (s.setDisp d).snapshot = s.snapshot := rfl
@[simp] theorem State.setDisp_hostQueue (d : Display) : (s.setDisp d).hostQueue = s.hostQueue := rfl
@[simp] theorem State.setDisp_loadReport (d : Display) : (s.setDisp d).loadReport = s.loadReport := rfl
@[simp] theorem State.setDisp_frame (d : Display) : (s.setDisp d).frame = s.frame := rfl

/-! ### memWrite -/

@[simp] theorem State.memWrite_v (a : Word) (bs : List Byte) : (s.memWrite a bs).v = s.v := rfl
@[simp] theorem State.memWrite_i (a : Word) (bs : List Byte) : (s.memWrite a bs).i = s.i := rfl
@[simp] theorem State.memWrite_pc (a : Word) (bs : List Byte) : (s.memWrite a bs).pc = s.pc := rfl
@[simp] theorem State.memWrite_sp (a : Word) (bs : List Byte) : (s.memWrite a bs).sp = s.sp := rfl
@[simp] theorem State.memWrite_stack (a : Word) (bs : List Byte) : (s.memWrite a bs).stack = s.stack := rfl
@[simp] theorem State.memWrite_dtSet (a : Word) (bs : List Byte) : (s.memWrite a bs).dtSet = s.dtSet := rfl
@[simp] theorem State.memWrite_dtT0 (a : Word) (bs : List Byte) : (s.memWrite a bs).dtT0 = s.dtT0 := rfl
@[simp] theorem State.memWrite_stSet (a : Word) (bs : List Byte) : (s.memWrite a bs).stSet = s.stSet := rfl
@[simp] theorem State.memWrite_stT0 (a : Word) (bs : List Byte) : (s.memWrite a bs).stT0 = s.stT0 := rfl
@[simp] theorem State.memWrite_mem (a : Word) (bs : List Byte) : (s.memWrite a bs).mem = writeBytes s.mem a bs := rfl
@[simp] theorem State.memWrite_disp (a : Word) (bs : List Byte) : (s.memWrite a bs).disp = s.disp := rfl
@[simp] theorem State.memWrite_keys (a : Word) (bs : List Byte) : (s.memWrite a bs).keys = s.keys := rfl
@[simp] theorem State.memWrite_shiftUsesVy (a : Word) (bs : List Byte) : (s.memWrite a bs).shiftUsesVy = s.shiftUsesVy := rfl
@[simp] theorem State.memWrite_now (a : Word) (bs : List Byte) : (s.memWrite a bs).now = s.now := rfl
@[simp] theorem State.memWrite_rand (a : Word) (bs : List Byte) : (s.memWrite a bs).rand = s.rand := rfl
@[simp] theorem State.memWrite_envCount (a : Word) (bs : List Byte) : (s.memWrite a bs).envCount = s.envCount := rfl
@[simp] theorem State.memWrite_runState (a : Word) (bs : List Byte) : (s.memWrite a bs).runState = s.runState := rfl
@[simp] theorem State.memWrite_resetPending (a : Word) (bs : List Byte) : (s.memWrite a bs).resetPending = s.resetPending := rfl
@[simp] theorem State.memWrite_clockHz (a : Word) (bs : List Byte) : (s.memWrite a bs).clockHz = s.clockHz := rfl
@[simp] theorem State.memWrite_singleStepEn (a : Word) (bs : List Byte) : (s.memWrite a bs).singleStepEn = s.singleStepEn := rfl
@[simp] theorem State.memWrite_singleStepReq (a : Word) (bs : List Byte) : (s.memWrite a bs).singleStepReq = s.singleStepReq := rfl
@[simp] theorem State.memWrite_shutdown (a : Word) (bs : List Byte) : (s.memWrite a bs).shutdown = s.shutdown := rfl
@[simp] theorem State.memWrite_lastInstrTick (a : Word) (bs : List Byte) : (s.memWrite a bs).lastInstrTick = s.lastInstrTick := rfl
@[simp] theorem State.memWrite_budget (a : Word) (bs : List Byte) : (s.memWrite a bs).budget = s.budget := rfl
@[simp] theorem State.memWrite_audioOn (a : Word) (bs : List Byte) : (s.memWrite a bs).audioOn = s.audioOn := rfl
@[simp] theorem State.memWrite_audioEdge (a : Word) (bs : List Byte) : (s.memWrite a bs).audioEdge = s.audioEdge := rfl
@[simp] theorem State.memWrite_status (a : Word) (bs : List Byte) : (s.memWrite a bs).status = s.status := rfl
@[simp] theorem State.memWrite_outcome (a : Word) (bs : List Byte) : (s.memWrite a bs).outcome = s.outcome := rfl
@[simp] theorem State.memWrite_snapshot (a : Word) (bs : List Byte) : (s.memWrite a bs).snapshot = s.snapshot := rfl
@[simp] theorem State.memWrite_hostQueue (a : Word) (bs : List Byte) : (s.memWrite a bs).hostQueue = s.hostQueue := rfl
@[simp] theorem State.memWrite_loadReport (a : Word) (bs : List Byte) : (s.memWrite a bs).loadReport = s.loadReport := rfl
@[simp] theorem State.memWrite_frame (a : Word) (bs : List Byte) : (s.memWrite a bs).frame = s.frame := rfl

/-! ### ended -/

@[simp] theorem State.ended_v (o : StepOutcome) : (s.ended o).v = s.v := rfl
@[simp] theorem State.ended_i (o : StepOutcome) : (s.ended o).i = s.i := rfl
@[simp] theorem State.ended_pc (o : StepOutcome) : (s.ended o).pc = s.pc := rfl
@[simp] theorem State.ended_sp (o : StepOutcome) : (s.ended o).sp = s.sp := rfl
@[simp] theorem State.ended_stack (o : StepOutcome) : (s.ended o).stack = s.stack := rfl
@[simp] theorem State.ended_dtSet (o : StepOutcome) : (s.ended o).dtSet = s.dtSet := rfl
@[simp] theorem State.ended_dtT0 (o : StepOutcome) : (s.ended o).dtT0 = s.dtT0 := rfl
@[simp] theorem State.ended_stSet (o : StepOutcome) : (s.ended o).stSet = s.stSet := rfl
@[simp] theorem State.ended_stT0 (o : StepOutcome) : (s.ended o).stT0 = s.stT0 := rfl
@[simp] theorem State.ended_mem (o : StepOutcome) : (s.ended o).mem = s.mem := rfl
@[simp] theorem State.ended_disp (o : StepOutcome) : (s.ended o).disp = s.disp := rfl
@[simp] theorem State.ended_keys (o : StepOutcome) : (s.ended o).keys = s.keys := rfl
@[simp] theorem State.ended_shiftUsesVy (o : StepOutcome) : (s.ended o).shiftUsesVy = s.shiftUsesVy := rfl
@[simp] theorem State.ended_now (o : StepOutcome) : (s.ended o).now = s.now := rfl
@[simp] theorem State.ended_rand (o : StepOutcome) : (s.ended o).rand = s.rand := rfl
@[simp] theorem State.ended_envCount (o : StepOutcome) : (s.ended o).envCount = s.envCount := rfl
@[simp] theorem State.ended_runState (o : StepOutcome) : (s.ended o).runState = s.runState := rfl
@[simp] theorem State.ended_resetPending (o : StepOutcome) : (s.ended o).resetPending = s.resetPending := rfl
@[simp] theorem State.ended_clockHz (o : StepOutcome) : (s.ended o).clockHz = s.clockHz := rfl
@[simp] theorem State.ended_singleStepEn (o : StepOutcome) : (s.ended o).singleStepEn = s.singleStepEn := rfl
@[simp] theorem State.ended_singleStepReq (o : StepOutcome) : (s.ended o).singleStepReq = s.singleStepReq := rfl
@[simp] theorem State.ended_shutdown (o : StepOutcome) : (s.ended o).shutdown = s.shutdown := rfl
@[simp] theorem State.ended_lastInstrTick (o : StepOutcome) : (s.ended o).lastInstrTick = s.lastInstrTick := rfl
@[simp] theorem State.ended_budget (o : StepOutcome) : (s.ended o).budget = s.budget := rfl
@[simp] theorem State.ended_audioOn (o : StepOutcome) : (s.ended o).audioOn = s.audioOn := rfl
@[simp] theorem State.ended_audioEdge (o : StepOutcome) : (s.ended o).audioEdge = s.audioEdge := rfl
@[simp] theorem State.ended_status (o : StepOutcome) : (s.ended o).status = statusAfter o := rfl
@[simp] theorem State.ended_outcome (o : StepOutcome) : (s.ended o).outcome = some o := rfl
@[simp] theorem State.ended_snapshot (o : StepOutcome) : (s.ended o).snapshot = s.snapshot := rfl
@[simp] theorem State.ended_hostQueue (o : StepOutcome) : (s.ended o).hostQueue = s.hostQueue := rfl
@[simp] theorem State.ended_loadReport (o : StepOutcome) : (s.ended o).loadReport = s.loadReport := rfl
@[simp] theorem State.ended_frame (o : StepOutcome) : (s.ended o).frame = s.frame := rfl

/-! ### setFlagThenV -/

@[simp] theorem State.setFlagThenV_i (x : Reg) (f b : Byte) : (s.setFlagThenV x f b).i = s.i := rfl
@[simp] theorem State.setFlagThenV_pc (x : Reg) (f b : Byte) : (s.setFlagThenV x f b).pc = s.pc := rfl
@[simp] theorem State.setFlagThenV_sp (x : Reg) (f b : Byte) : (s.setFlagThenV x f b).sp = s.sp := rfl
@[simp] theorem State.setFlagThenV_stack (x : Reg) (f b : Byte) : (s.setFlagThenV x f b).stack = s.stack := rfl
@[simp] theorem State.setFlagThenV_dtSet (x : Reg) (f b : Byte) : (s.setFlagThenV x f b).dtSet = s.dtSet := rfl
@[simp] theorem State.setFlagThenV_dtT0 (x : Reg) (f b : Byte) : (s.setFlagThenV x f b).dtT0 = s.dtT0 := rfl
@[simp] theorem State.setFlagThenV_stSet (x : Reg) (f b : Byte) : (s.setFlagThenV x f b).stSet = s.stSet := rfl
@[simp] theorem State.setFlagThenV_stT0 (x : Reg) (f b : Byte) : (s.setFlagThenV x f b).stT0 = s.stT0 := rfl
@[simp] theorem State.setFlagThenV_mem (x : Reg) (f b : Byte) : (s.setFlagThenV x f b).mem = s.mem := rfl
@[simp] theorem State.setFlagThenV_disp (x : Reg) (f b : Byte) : (s.setFlagThenV x f b).disp = s.disp := rfl
@[simp] theorem State.setFlagThenV_keys (x : Reg) (f b : Byte) : (s.setFlagThenV x f b).keys = s.keys := rfl
@[simp] theorem State.setFlagThenV_shiftUsesVy (x : Reg) (f b : Byte) : (s.setFlagThenV x f b).shiftUsesVy = s.shiftUsesVy := rfl
@[simp] theorem State.setFlagThenV_now (x : Reg) (f b : Byte) : (s.setFlagThenV x f b).now = s.now := rfl
@[simp] theorem State.setFlagThenV_rand (x : Reg) (f b : Byte) : (s.setFlagThenV x f b).rand = s.rand := rfl
@[simp] theorem State.setFlagThenV_envCount (x : Reg) (f b : Byte) : (s.setFlagThenV x f b).envCount = s.envCount := rfl
@[simp] theorem State.setFlagThenV_runState (x : Reg) (f b : Byte) : (s.setFlagThenV x f b).runState = s.runState := rfl
@[simp] theorem State.setFlagThenV_resetPending (x : Reg) (f b : Byte) : (s.setFlagThenV x f b).resetPending = s.resetPending := rfl
@[simp] theorem State.setFlagThenV_clockHz (x : Reg) (f b : Byte) : (s.setFlagThenV x f b).clockHz = s.clockHz := rfl
@[simp] theorem State.setFlagThenV_singleStepEn (x : Reg) (f b : Byte) : (s.setFlagThenV x f b).singleStepEn = s.singleStepEn := rfl
@[simp] theorem State.setFlagThenV_singleStepReq (x : Reg) (f b : Byte) : (s.setFlagThenV x f b).singleStepReq = s.singleStepReq := rfl
@[simp] theorem State.setFlagThenV_shutdown (x : Reg) (f b : Byte) : (s.setFlagThenV x f b).shutdown = s.shutdown := rfl
@[simp] theorem State.setFlagThenV_lastInstrTick (x : Reg) (f b : Byte) : (s.setFlagThenV x f b).lastInstrTick = s.lastInstrTick := rfl
@[simp] theorem State.setFlagThenV_budget (x : Reg) (f b : Byte) : (s.setFlagThenV x f b).budget = s.budget := rfl
@[simp] theorem State.setFlagThenV_audioOn (x : Reg) (f b : Byte) : (s.setFlagThenV x f b).audioOn = s.audioOn := rfl
@[simp] theorem State.setFlagThenV_audioEdge (x : Reg) (f b : Byte) : (s.setFlagThenV x f b).audioEdge = s.audioEdge := rfl
@[simp] theorem State.setFlagThenV_status (x : Reg) (f b : Byte) : (s.setFlagThenV x f b).status = s.status := rfl
@[simp] theorem State.setFlagThenV_outcome (x : Reg) (f b : Byte) : (s.setFlagThenV x f b).outcome = s.outcome := rfl
@[simp] theorem State.setFlagThenV_snapshot (x : Reg) (f b : Byte) : (s.setFlagThenV x f b).snapshot = s.snapshot := rfl
@[simp] theorem State.setFlagThenV_hostQueue (x : Reg) (f b : Byte) : (s.setFlagThenV x f b).hostQueue = s.hostQueue := rfl
@[simp] theorem State.setFlagThenV_loadReport (x : Reg) (f b : Byte) : (s.setFlagThenV x f b).loadReport = s.loadReport := rfl
@[simp] theorem State.setFlagThenV_frame (x : Reg) (f b : Byte) : (s.setFlagThenV x f b).frame = s.frame := rfl

/-! ### sampleNow -/

@[simp] theorem State.sampleNow_v : (s.sampleNow).v = s.v := rfl
@[simp] theorem State.sampleNow_i : (s.sampleNow).i = s.i := rfl
@[simp] theorem State.sampleNow_pc : (s.sampleNow).pc = s.pc := rfl
@[simp] theorem State.sampleNow_sp : (s.sampleNow).sp = s.sp := rfl
@[simp] theorem State.sampleNow_stack : (s.sampleNow).stack = s.stack := rfl
@[simp] theorem State.sampleNow_dtSet : (s.sampleNow).dtSet = s.dtSet := rfl
@[simp] theorem State.sampleNow_dtT0 : (s.sampleNow).dtT0 = s.dtT0 := rfl
@[simp] theorem State.sampleNow_stSet : (s.sampleNow).stSet = s.stSet := rfl
@[simp] theorem State.sampleNow_stT0 : (s.sampleNow).stT0 = s.stT0 := rfl
@[simp] theorem State.sampleNow_mem : (s.sampleNow).mem = s.mem := rfl
@[simp] theorem State.sampleNow_disp : (s.sampleNow).disp = s.disp := rfl
@[simp] theorem State.sampleNow_keys : (s.sampleNow).keys = s.keys := rfl
@[simp] theorem State.sampleNow_shiftUsesVy : (s.sampleNow).shiftUsesVy = s.shiftUsesVy := rfl
@[simp] theorem State.sampleNow_now : (s.sampleNow).now = s.now + (Config.elapsed s.envCount).val := rfl
@[simp] theorem State.sampleNow_rand : (s.sampleNow).rand = s.rand := rfl
@[simp] theorem State.sampleNow_envCount : (s.sampleNow).envCount = s.envCount + 1 := rfl
@[simp] theorem State.sampleNow_runState : (s.sampleNow).runState = s.runState := rfl
@[simp] theorem State.sampleNow_resetPending : (s.sampleNow).resetPending = s.resetPending := rfl
@[simp] theorem State.sampleNow_clockHz : (s.sampleNow).clockHz = s.clockHz := rfl
@[simp] theorem State.sampleNow_singleStepEn : (s.sampleNow).singleStepEn = s.singleStepEn := rfl
@[simp] theorem State.sampleNow_singleStepReq : (s.sampleNow).singleStepReq = s.singleStepReq := rfl
@[simp] theorem State.sampleNow_shutdown : (s.sampleNow).shutdown = s.shutdown := rfl
@[simp] theorem State.sampleNow_lastInstrTick : (s.sampleNow).lastInstrTick = s.lastInstrTick := rfl
@[simp] theorem State.sampleNow_budget : (s.sampleNow).budget = s.budget := rfl
@[simp] theorem State.sampleNow_audioOn : (s.sampleNow).audioOn = s.audioOn := rfl
@[simp] theorem State.sampleNow_audioEdge : (s.sampleNow).audioEdge = s.audioEdge := rfl
@[simp] theorem State.sampleNow_status : (s.sampleNow).status = s.status := rfl
@[simp] theorem State.sampleNow_outcome : (s.sampleNow).outcome = s.outcome := rfl
@[simp] theorem State.sampleNow_snapshot : (s.sampleNow).snapshot = s.snapshot := rfl
@[simp] theorem State.sampleNow_hostQueue : (s.sampleNow).hostQueue = s.hostQueue := rfl
@[simp] theorem State.sampleNow_loadReport : (s.sampleNow).loadReport = s.loadReport := rfl
@[simp] theorem State.sampleNow_frame : (s.sampleNow).frame = s.frame := rfl

/-! ### sampleStep -/

@[simp] theorem State.sampleStep_v : (s.sampleStep).v = s.v := rfl
@[simp] theorem State.sampleStep_i : (s.sampleStep).i = s.i := rfl
@[simp] theorem State.sampleStep_pc : (s.sampleStep).pc = s.pc := rfl
@[simp] theorem State.sampleStep_sp : (s.sampleStep).sp = s.sp := rfl
@[simp] theorem State.sampleStep_stack : (s.sampleStep).stack = s.stack := rfl
@[simp] theorem State.sampleStep_dtSet : (s.sampleStep).dtSet = s.dtSet := rfl
@[simp] theorem State.sampleStep_dtT0 : (s.sampleStep).dtT0 = s.dtT0 := rfl
@[simp] theorem State.sampleStep_stSet : (s.sampleStep).stSet = s.stSet := rfl
@[simp] theorem State.sampleStep_stT0 : (s.sampleStep).stT0 = s.stT0 := rfl
@[simp] theorem State.sampleStep_mem : (s.sampleStep).mem = s.mem := rfl
@[simp] theorem State.sampleStep_disp : (s.sampleStep).disp = s.disp := rfl
@[simp] theorem State.sampleStep_keys : (s.sampleStep).keys = Config.keySample s.envCount := rfl
@[simp] theorem State.sampleStep_shiftUsesVy : (s.sampleStep).shiftUsesVy = s.shiftUsesVy := rfl
@[simp] theorem State.sampleStep_now : (s.sampleStep).now = s.now + (Config.elapsed s.envCount).val := rfl
@[simp] theorem State.sampleStep_rand : (s.sampleStep).rand = Config.randSample s.envCount := rfl
@[simp] theorem State.sampleStep_envCount : (s.sampleStep).envCount = s.envCount + 1 := rfl
@[simp] theorem State.sampleStep_runState : (s.sampleStep).runState = s.runState := rfl
@[simp] theorem State.sampleStep_resetPending : (s.sampleStep).resetPending = s.resetPending := rfl
@[simp] theorem State.sampleStep_clockHz : (s.sampleStep).clockHz = s.clockHz := rfl
@[simp] theorem State.sampleStep_singleStepEn : (s.sampleStep).singleStepEn = s.singleStepEn := rfl
@[simp] theorem State.sampleStep_singleStepReq : (s.sampleStep).singleStepReq = s.singleStepReq := rfl
@[simp] theorem State.sampleStep_shutdown : (s.sampleStep).shutdown = s.shutdown := rfl
@[simp] theorem State.sampleStep_lastInstrTick : (s.sampleStep).lastInstrTick = s.lastInstrTick := rfl
@[simp] theorem State.sampleStep_budget : (s.sampleStep).budget = s.budget := rfl
@[simp] theorem State.sampleStep_audioOn : (s.sampleStep).audioOn = s.audioOn := rfl
@[simp] theorem State.sampleStep_audioEdge : (s.sampleStep).audioEdge = s.audioEdge := rfl
@[simp] theorem State.sampleStep_status : (s.sampleStep).status = s.status := rfl
@[simp] theorem State.sampleStep_outcome : (s.sampleStep).outcome = s.outcome := rfl
@[simp] theorem State.sampleStep_snapshot : (s.sampleStep).snapshot = s.snapshot := rfl
@[simp] theorem State.sampleStep_hostQueue : (s.sampleStep).hostQueue = s.hostQueue := rfl
@[simp] theorem State.sampleStep_loadReport : (s.sampleStep).loadReport = s.loadReport := rfl
@[simp] theorem State.sampleStep_frame : (s.sampleStep).frame = s.frame := rfl

/-! ### beginInstr -/

@[simp] theorem State.beginInstr_v : (s.beginInstr).v = s.v := rfl
@[simp] theorem State.beginInstr_i : (s.beginInstr).i = s.i := rfl
@[simp] theorem State.beginInstr_pc : (s.beginInstr).pc = s.pc := rfl
@[simp] theorem State.beginInstr_sp : (s.beginInstr).sp = s.sp := rfl
@[simp] theorem State.beginInstr_stack : (s.beginInstr).stack = s.stack := rfl
@[simp] theorem State.beginInstr_dtSet : (s.beginInstr).dtSet = s.dtSet := rfl
@[simp] theorem State.beginInstr_dtT0 : (s.beginInstr).dtT0 = s.dtT0 := rfl
@[simp] theorem State.beginInstr_stSet : (s.beginInstr).stSet = s.stSet := rfl
@[simp] theorem State.beginInstr_stT0 : (s.beginInstr).stT0 = s.stT0 := rfl
@[simp] theorem State.beginInstr_mem : (s.beginInstr).mem = s.mem := rfl
@[simp] theorem State.beginInstr_disp : (s.beginInstr).disp = s.disp := rfl
@[simp] theorem State.beginInstr_keys : (s.beginInstr).keys = Config.keySample s.envCount := rfl
@[simp] theorem State.beginInstr_shiftUsesVy : (s.beginInstr).shiftUsesVy = s.shiftUsesVy := rfl
@[simp] theorem State.beginInstr_now : (s.beginInstr).now = s.now + (Config.elapsed s.envCount).val := rfl
@[simp] theorem State.beginInstr_rand : (s.beginInstr).rand = Config.randSample s.envCount := rfl
@[simp] theorem State.beginInstr_envCount : (s.beginInstr).envCount = s.envCount + 1 := rfl
@[simp] theorem State.beginInstr_runState : (s.beginInstr).runState = s.runState := rfl
@[simp] theorem State.beginInstr_resetPending : (s.beginInstr).resetPending = s.resetPending := rfl
@[simp] theorem State.beginInstr_clockHz : (s.beginInstr).clockHz = s.clockHz := rfl
@[simp] theorem State.beginInstr_singleStepEn : (s.beginInstr).singleStepEn = s.singleStepEn := rfl
@[simp] theorem State.beginInstr_singleStepReq : (s.beginInstr).singleStepReq = s.singleStepReq := rfl
@[simp] theorem State.beginInstr_shutdown : (s.beginInstr).shutdown = s.shutdown := rfl
@[simp] theorem State.beginInstr_lastInstrTick : (s.beginInstr).lastInstrTick = s.lastInstrTick := rfl
@[simp] theorem State.beginInstr_budget : (s.beginInstr).budget = s.budget - 1 := rfl
@[simp] theorem State.beginInstr_audioOn : (s.beginInstr).audioOn = s.audioOn := rfl
@[simp] theorem State.beginInstr_audioEdge : (s.beginInstr).audioEdge = s.audioEdge := rfl
@[simp] theorem State.beginInstr_status : (s.beginInstr).status = s.status := rfl
@[simp] theorem State.beginInstr_outcome : (s.beginInstr).outcome = s.outcome := rfl
@[simp] theorem State.beginInstr_snapshot : (s.beginInstr).snapshot = s.snapshot := rfl
@[simp] theorem State.beginInstr_hostQueue : (s.beginInstr).hostQueue = s.hostQueue := rfl
@[simp] theorem State.beginInstr_loadReport : (s.beginInstr).loadReport = s.loadReport := rfl
@[simp] theorem State.beginInstr_frame : (s.beginInstr).frame = s.frame := rfl

/-! ### sleepTick -/

@[simp] theorem State.sleepTick_v : (s.sleepTick).v = s.v := rfl
@[simp] theorem State.sleepTick_i : (s.sleepTick).i = s.i := rfl
@[simp] theorem State.sleepTick_pc : (s.sleepTick).pc = s.pc := rfl
@[simp] theorem State.sleepTick_sp : (s.sleepTick).sp = s.sp := rfl
@[simp] theorem State.sleepTick_stack : (s.sleepTick).stack = s.stack := rfl
@[simp] theorem State.sleepTick_dtSet : (s.sleepTick).dtSet = s.dtSet := rfl
@[simp] theorem State.sleepTick_dtT0 : (s.sleepTick).dtT0 = s.dtT0 := rfl
@[simp] theorem State.sleepTick_stSet : (s.sleepTick).stSet = s.stSet := rfl
@[simp] theorem State.sleepTick_stT0 : (s.sleepTick).stT0 = s.stT0 := rfl
@[simp] theorem State.sleepTick_mem : (s.sleepTick).mem = s.mem := rfl
@[simp] theorem State.sleepTick_disp : (s.sleepTick).disp = s.disp := rfl
@[simp] theorem State.sleepTick_keys : (s.sleepTick).keys = s.keys := rfl
@[simp] theorem State.sleepTick_shiftUsesVy : (s.sleepTick).shiftUsesVy = s.shiftUsesVy := rfl
@[simp] theorem State.sleepTick_now : (s.sleepTick).now = s.now + Config.tickSleep.val + (Config.elapsed s.envCount).val := rfl
@[simp] theorem State.sleepTick_rand : (s.sleepTick).rand = s.rand := rfl
@[simp] theorem State.sleepTick_envCount : (s.sleepTick).envCount = s.envCount + 1 := rfl
@[simp] theorem State.sleepTick_runState : (s.sleepTick).runState = s.runState := rfl
@[simp] theorem State.sleepTick_resetPending : (s.sleepTick).resetPending = s.resetPending := rfl
@[simp] theorem State.sleepTick_clockHz : (s.sleepTick).clockHz = s.clockHz := rfl
@[simp] theorem State.sleepTick_singleStepEn : (s.sleepTick).singleStepEn = s.singleStepEn := rfl
@[simp] theorem State.sleepTick_singleStepReq : (s.sleepTick).singleStepReq = s.singleStepReq := rfl
@[simp] theorem State.sleepTick_shutdown : (s.sleepTick).shutdown = s.shutdown := rfl
@[simp] theorem State.sleepTick_lastInstrTick : (s.sleepTick).lastInstrTick = s.lastInstrTick := rfl
@[simp] theorem State.sleepTick_budget : (s.sleepTick).budget = s.budget := rfl
@[simp] theorem State.sleepTick_audioOn : (s.sleepTick).audioOn = s.audioOn := rfl
@[simp] theorem State.sleepTick_audioEdge : (s.sleepTick).audioEdge = s.audioEdge := rfl
@[simp] theorem State.sleepTick_status : (s.sleepTick).status = s.status := rfl
@[simp] theorem State.sleepTick_outcome : (s.sleepTick).outcome = s.outcome := rfl
@[simp] theorem State.sleepTick_snapshot : (s.sleepTick).snapshot = s.snapshot := rfl
@[simp] theorem State.sleepTick_hostQueue : (s.sleepTick).hostQueue = s.hostQueue := rfl
@[simp] theorem State.sleepTick_loadReport : (s.sleepTick).loadReport = s.loadReport := rfl
@[simp] theorem State.sleepTick_frame : (s.sleepTick).frame = s.frame := rfl

/-! ### init -/

@[simp] theorem State.init_v : (s.init).v = Vector.replicate 16 0x00#8 := rfl
@[simp] theorem State.init_i : (s.init).i = 0x0000#16 := rfl
@[simp] theorem State.init_pc : (s.init).pc = 0x0200#16 := rfl
@[simp] theorem State.init_sp : (s.init).sp = 0x00#8 := rfl
@[simp] theorem State.init_stack : (s.init).stack = Vector.replicate 16 0x0000#16 := rfl
@[simp] theorem State.init_dtSet : (s.init).dtSet = 0x00#8 := rfl
@[simp] theorem State.init_dtT0 : (s.init).dtT0 = (Config.initAnchors s.envCount).1 := rfl
@[simp] theorem State.init_stSet : (s.init).stSet = 0x00#8 := rfl
@[simp] theorem State.init_stT0 : (s.init).stT0 = (Config.initAnchors s.envCount).2 := rfl
@[simp] theorem State.init_mem : (s.init).mem = [] := rfl
@[simp] theorem State.init_disp : (s.init).disp = Display.off := rfl
@[simp] theorem State.init_keys : (s.init).keys = Vector.replicate 16 false := rfl
@[simp] theorem State.init_shiftUsesVy : (s.init).shiftUsesVy = s.shiftUsesVy := rfl
@[simp] theorem State.init_now : (s.init).now = s.now := rfl
@[simp] theorem State.init_rand : (s.init).rand = s.rand := rfl
@[simp] theorem State.init_envCount : (s.init).envCount = s.envCount := rfl
@[simp] theorem State.init_runState : (s.init).runState = s.runState := rfl
@[simp] theorem State.init_resetPending : (s.init).resetPending = s.resetPending := rfl
@[simp] theorem State.init_clockHz : (s.init).clockHz = s.clockHz := rfl
@[simp] theorem State.init_singleStepEn : (s.init).singleStepEn = s.singleStepEn := rfl
@[simp] theorem State.init_singleStepReq : (s.init).singleStepReq = s.singleStepReq := rfl
@[simp] theorem State.init_shutdown : (s.init).shutdown = s.shutdown := rfl
@[simp] theorem State.init_lastInstrTick : (s.init).lastInstrTick = s.lastInstrTick := rfl
@[simp] theorem State.init_budget : (s.init).budget = s.budget := rfl
@[simp] theorem State.init_audioOn : (s.init).audioOn = s.audioOn := rfl
@[simp] theorem State.init_audioEdge : (s.init).audioEdge = s.audioEdge := rfl
@[simp] theorem State.init_status : (s.init).status = .normal := rfl
@[simp] theorem State.init_outcome : (s.init).outcome = s.outcome := rfl
@[simp] theorem State.init_snapshot : (s.init).snapshot = s.snapshot := rfl
@[simp] theorem State.init_hostQueue : (s.init).hostQueue = s.hostQueue := rfl
@[simp] theorem State.init_loadReport : (s.init).loadReport = s.loadReport := rfl
@[simp] theorem State.init_frame : (s.init).frame = s.frame := rfl

/-! ### performReset -/

@[simp] theorem State.performReset_v : (s.performReset).v = Vector.replicate 16 0x00#8 := rfl
@[simp] theorem State.performReset_i : (s.performReset).i = 0x0000#16 := rfl
@[simp] theorem State.performReset_pc : (s.performReset).pc = 0x0200#16 := rfl
@[simp] theorem State.performReset_sp : (s.performReset).sp = 0x00#8 := rfl
@[simp] theorem State.performReset_stack : (s.performReset).stack = Vector.replicate 16 0x0000#16 := rfl
@[simp] theorem State.performReset_dtSet : (s.performReset).dtSet = 0x00#8 := rfl
@[simp] theorem State.performReset_dtT0 : (s.performReset).dtT0 = (Config.initAnchors s.envCount).1 := rfl
@[simp] theorem State.performReset_stSet : (s.performReset).stSet = 0x00#8 := rfl
@[simp] theorem State.performReset_stT0 : (s.performReset).stT0 = (Config.initAnchors s.envCount).2 := rfl
@[simp] theorem State.performReset_mem : (s.performReset).mem = [] := rfl
@[simp] theorem State.performReset_disp : (s.performReset).disp = Display.off := rfl
@[simp] theorem State.performReset_keys : (s.performReset).keys = Vector.replicate 16 false := rfl
@[simp] theorem State.performReset_shiftUsesVy : (s.performReset).shiftUsesVy = s.shiftUsesVy := rfl
@[simp] theorem State.performReset_now : (s.performReset).now = s.now := rfl
@[simp] theorem State.performReset_rand : (s.performReset).rand = s.rand := rfl
@[simp] theorem State.performReset_envCount : (s.performReset).envCount = s.envCount := rfl
@[simp] theorem State.performReset_runState : (s.performReset).runState = s.runState := rfl
@[simp] theorem State.performReset_resetPending : (s.performReset).resetPending = false := rfl
@[simp] theorem State.performReset_clockHz : (s.performReset).clockHz = s.clockHz := rfl
@[simp] theorem State.performReset_singleStepEn : (s.performReset).singleStepEn = s.singleStepEn := rfl
@[simp] theorem State.performReset_singleStepReq : (s.performReset).singleStepReq = s.singleStepReq := rfl
@[simp] theorem State.performReset_shutdown : (s.performReset).shutdown = s.shutdown := rfl
@[simp] theorem State.performReset_lastInstrTick : (s.performReset).lastInstrTick = s.now := rfl
@[simp] theorem State.performReset_budget : (s.performReset).budget = s.budget := rfl
@[simp] theorem State.performReset_audioOn : (s.performReset).audioOn = s.audioOn := rfl
@[simp] theorem State.performReset_audioEdge : (s.performReset).audioEdge = s.audioEdge := rfl
@[simp] theorem State.performReset_status : (s.performReset).status = .normal := rfl
@[simp] theorem State.performReset_outcome : (s.performReset).outcome = s.outcome := rfl
@[simp] theorem State.performReset_snapshot : (s.performReset).snapshot = s.snapshot := rfl
@[simp] theorem State.performReset_hostQueue : (s.performReset).hostQueue = s.hostQueue := rfl
@[simp] theorem State.performReset_loadReport : (s.performReset).loadReport = s.loadReport := rfl
@[simp] theorem State.performReset_frame : (s.performReset).frame = s.frame := rfl

/-! ### evalAudio -/

@[simp] theorem State.evalAudio_v : (s.evalAudio).v = s.v := rfl
@[simp] theorem State.evalAudio_i : (s.evalAudio).i = s.i := rfl
@[simp] theorem State.evalAudio_pc : (s.evalAudio).pc = s.pc := rfl
@[simp] theorem State.evalAudio_sp : (s.evalAudio).sp = s.sp := rfl
@[simp] theorem State.evalAudio_stack : (s.evalAudio).stack = s.stack := rfl
@[simp] theorem State.evalAudio_dtSet : (s.evalAudio).dtSet = s.dtSet := rfl
@[simp] theorem State.evalAudio_dtT0 : (s.evalAudio).dtT0 = s.dtT0 := rfl
@[simp] theorem State.evalAudio_stSet : (s.evalAudio).stSet = s.stSet := rfl
@[simp] theorem State.evalAudio_stT0 : (s.evalAudio).stT0 = s.stT0 := rfl
@[simp] theorem State.evalAudio_mem : (s.evalAudio).mem = s.mem := rfl
@[simp] theorem State.evalAudio_disp : (s.evalAudio).disp = s.disp := rfl
@[simp] theorem State.evalAudio_keys : (s.evalAudio).keys = s.keys := rfl
@[simp] theorem State.evalAudio_shiftUsesVy : (s.evalAudio).shiftUsesVy = s.shiftUsesVy := rfl
@[simp] theorem State.evalAudio_now : (s.evalAudio).now = s.now := rfl
@[simp] theorem State.evalAudio_rand : (s.evalAudio).rand = s.rand := rfl
@[simp] theorem State.evalAudio_envCount : (s.evalAudio).envCount = s.envCount := rfl
@[simp] theorem State.evalAudio_runState : (s.evalAudio).runState = s.runState := rfl
@[simp] theorem State.evalAudio_resetPending : (s.evalAudio).resetPending = s.resetPending := rfl
@[simp] theorem State.evalAudio_clockHz : (s.evalAudio).clockHz = s.clockHz := rfl
@[simp] theorem State.evalAudio_singleStepEn : (s.evalAudio).singleStepEn = s.singleStepEn := rfl
@[simp] theorem State.evalAudio_singleStepReq : (s.evalAudio).singleStepReq = s.singleStepReq := rfl
@[simp] theorem State.evalAudio_shutdown : (s.evalAudio).shutdown = s.shutdown := rfl
@[simp] theorem State.evalAudio_lastInstrTick : (s.evalAudio).lastInstrTick = s.lastInstrTick := rfl
@[simp] theorem State.evalAudio_budget : (s.evalAudio).budget = s.budget := rfl
@[simp] theorem State.evalAudio_audioOn : (s.evalAudio).audioOn = s.audioLevel := rfl
@[simp] theorem State.evalAudio_audioEdge : (s.evalAudio).audioEdge = edgeBetween s.audioOn s.audioLevel := rfl
@[simp] theorem State.evalAudio_status : (s.evalAudio).status = s.status := rfl
@[simp] theorem State.evalAudio_outcome : (s.evalAudio).outcome = s.outcome := rfl
@[simp] theorem State.evalAudio_snapshot : (s.evalAudio).snapshot = s.snapshot := rfl
@[simp] theorem State.evalAudio_hostQueue : (s.evalAudio).hostQueue = s.hostQueue := rfl
@[simp] theorem State.evalAudio_loadReport : (s.evalAudio).loadReport = s.loadReport := rfl
@[simp] theorem State.evalAudio_frame : (s.evalAudio).frame = s.frame := rfl

/-! ### grantBudget -/

@[simp] theorem State.grantBudget_v : (s.grantBudget).v = s.v := rfl
@[simp] theorem State.grantBudget_i : (s.grantBudget).i = s.i := rfl
@[simp] theorem State.grantBudget_pc : (s.grantBudget).pc = s.pc := rfl
@[simp] theorem State.grantBudget_sp : (s.grantBudget).sp = s.sp := rfl
@[simp] theorem State.grantBudget_stack : (s.grantBudget).stack = s.stack := rfl
@[simp] theorem State.grantBudget_dtSet : (s.grantBudget).dtSet = s.dtSet := rfl
@[simp] theorem State.grantBudget_dtT0 : (s.grantBudget).dtT0 = s.dtT0 := rfl
@[simp] theorem State.grantBudget_stSet : (s.grantBudget).stSet = s.stSet := rfl
@[simp] theorem State.grantBudget_stT0 : (s.grantBudget).stT0 = s.stT0 := rfl
@[simp] theorem State.grantBudget_mem : (s.grantBudget).mem = s.mem := rfl
@[simp] theorem State.grantBudget_disp : (s.grantBudget).disp = s.disp := rfl
@[simp] theorem State.grantBudget_keys : (s.grantBudget).keys = s.keys := rfl
@[simp] theorem State.grantBudget_shiftUsesVy : (s.grantBudget).shiftUsesVy = s.shiftUsesVy := rfl
@[simp] theorem State.grantBudget_now : (s.grantBudget).now = s.now := rfl
@[simp] theorem State.grantBudget_rand : (s.grantBudget).rand = s.rand := rfl
@[simp] theorem State.grantBudget_envCount : (s.grantBudget).envCount = s.envCount := rfl
@[simp] theorem State.grantBudget_runState : (s.grantBudget).runState = s.runState := rfl
@[simp] theorem State.grantBudget_resetPending : (s.grantBudget).resetPending = s.resetPending := rfl
@[simp] theorem State.grantBudget_clockHz : (s.grantBudget).clockHz = s.clockHz := rfl
@[simp] theorem State.grantBudget_singleStepEn : (s.grantBudget).singleStepEn = s.singleStepEn := rfl
@[simp] theorem State.grantBudget_singleStepReq : (s.grantBudget).singleStepReq = if s.singleStepEn then false else s.singleStepReq := rfl
@[simp] theorem State.grantBudget_shutdown : (s.grantBudget).shutdown = s.shutdown := rfl
@[simp] theorem State.grantBudget_lastInstrTick : (s.grantBudget).lastInstrTick = if 1 ≤ s.gatedBudget then s.now else s.lastInstrTick := rfl
@[simp] theorem State.grantBudget_budget : (s.grantBudget).budget = s.gatedBudget := rfl
@[simp] theorem State.grantBudget_audioOn : (s.grantBudget).audioOn = s.audioOn := rfl
@[simp] theorem State.grantBudget_audioEdge : (s.grantBudget).audioEdge = s.audioEdge := rfl
@[simp] theorem State.grantBudget_status : (s.grantBudget).status = s.status := rfl
@[simp] theorem State.grantBudget_outcome : (s.grantBudget).outcome = s.outcome := rfl
@[simp] theorem State.grantBudget_snapshot : (s.grantBudget).snapshot = s.snapshot := rfl
@[simp] theorem State.grantBudget_hostQueue : (s.grantBudget).hostQueue = s.hostQueue := rfl
@[simp] theorem State.grantBudget_loadReport : (s.grantBudget).loadReport = s.loadReport := rfl
@[simp] theorem State.grantBudget_frame : (s.grantBudget).frame = s.frame := rfl

/-! ### settle -/

@[simp] theorem State.settle_v (j : Option Instr) : (s.settle j).v = s.v := rfl
@[simp] theorem State.settle_i (j : Option Instr) : (s.settle j).i = s.i := rfl
@[simp] theorem State.settle_pc (j : Option Instr) : (s.settle j).pc = s.pc := rfl
@[simp] theorem State.settle_sp (j : Option Instr) : (s.settle j).sp = s.sp := rfl
@[simp] theorem State.settle_stack (j : Option Instr) : (s.settle j).stack = s.stack := rfl
@[simp] theorem State.settle_dtSet (j : Option Instr) : (s.settle j).dtSet = s.dtSet := rfl
@[simp] theorem State.settle_dtT0 (j : Option Instr) : (s.settle j).dtT0 = s.dtT0 := rfl
@[simp] theorem State.settle_stSet (j : Option Instr) : (s.settle j).stSet = s.stSet := rfl
@[simp] theorem State.settle_stT0 (j : Option Instr) : (s.settle j).stT0 = s.stT0 := rfl
@[simp] theorem State.settle_mem (j : Option Instr) : (s.settle j).mem = s.mem := rfl
@[simp] theorem State.settle_disp (j : Option Instr) : (s.settle j).disp = s.disp := rfl
@[simp] theorem State.settle_keys (j : Option Instr) : (s.settle j).keys = s.keys := rfl
@[simp] theorem State.settle_shiftUsesVy (j : Option Instr) : (s.settle j).shiftUsesVy = s.shiftUsesVy := rfl
@[simp] theorem State.settle_now (j : Option Instr) : (s.settle j).now = s.now := rfl
@[simp] theorem State.settle_rand (j : Option Instr) : (s.settle j).rand = s.rand := rfl
@[simp] theorem State.settle_envCount (j : Option Instr) : (s.settle j).envCount = s.envCount := rfl
@[simp] theorem State.settle_runState (j : Option Instr) : (s.settle j).runState = s.runState := rfl
@[simp] theorem State.settle_resetPending (j : Option Instr) : (s.settle j).resetPending = s.resetPending := rfl
@[simp] theorem State.settle_clockHz (j : Option Instr) : (s.settle j).clockHz = s.clockHz := rfl
@[simp] theorem State.settle_singleStepEn (j : Option Instr) : (s.settle j).singleStepEn = s.singleStepEn := rfl
@[simp] theorem State.settle_singleStepReq (j : Option Instr) : (s.settle j).singleStepReq = s.singleStepReq := rfl
@[simp] theorem State.settle_shutdown (j : Option Instr) : (s.settle j).shutdown = s.shutdown := rfl
@[simp] theorem State.settle_lastInstrTick (j : Option Instr) : (s.settle j).lastInstrTick = s.lastInstrTick := rfl
@[simp] theorem State.settle_budget (j : Option Instr) : (s.settle j).budget = if s.outcome = some .noInstruction then 0 else s.budget := rfl
@[simp] theorem State.settle_audioOn (j : Option Instr) : (s.settle j).audioOn = s.audioOn := rfl
@[simp] theorem State.settle_audioEdge (j : Option Instr) : (s.settle j).audioEdge = s.audioEdge := rfl
@[simp] theorem State.settle_status (j : Option Instr) : (s.settle j).status = s.status := rfl
@[simp] theorem State.settle_outcome (j : Option Instr) : (s.settle j).outcome = s.outcome := rfl
@[simp] theorem State.settle_snapshot (j : Option Instr) : (s.settle j).snapshot = some (s.snapshotOf j) := rfl
@[simp] theorem State.settle_hostQueue (j : Option Instr) : (s.settle j).hostQueue = s.hostQueue := rfl
@[simp] theorem State.settle_loadReport (j : Option Instr) : (s.settle j).loadReport = s.loadReport := rfl
@[simp] theorem State.settle_frame (j : Option Instr) : (s.settle j).frame = s.frame := rfl

/-! ### popHost -/

@[simp] theorem State.popHost_v : (s.popHost).v = s.v := rfl
@[simp] theorem State.popHost_i : (s.popHost).i = s.i := rfl
@[simp] theorem State.popHost_pc : (s.popHost).pc = s.pc := rfl
@[simp] theorem State.popHost_sp : (s.popHost).sp = s.sp := rfl
@[simp] theorem State.popHost_stack : (s.popHost).stack = s.stack := rfl
@[simp] theorem State.popHost_dtSet : (s.popHost).dtSet = s.dtSet := rfl
@[simp] theorem State.popHost_dtT0 : (s.popHost).dtT0 = s.dtT0 := rfl
@[simp] theorem State.popHost_stSet : (s.popHost).stSet = s.stSet := rfl
@[simp] theorem State.popHost_stT0 : (s.popHost).stT0 = s.stT0 := rfl
@[simp] theorem State.popHost_mem : (s.popHost).mem = s.mem := rfl
@[simp] theorem State.popHost_disp : (s.popHost).disp = s.disp := rfl
@[simp] theorem State.popHost_keys : (s.popHost).keys = s.keys := rfl
@[simp] theorem State.popHost_shiftUsesVy : (s.popHost).shiftUsesVy = s.shiftUsesVy := rfl
@[simp] theorem State.popHost_now : (s.popHost).now = s.now := rfl
@[simp] theorem State.popHost_rand : (s.popHost).rand = s.rand := rfl
@[simp] theorem State.popHost_envCount : (s.popHost).envCount = s.envCount := rfl
@[simp] theorem State.popHost_runState : (s.popHost).runState = s.runState := rfl
@[simp] theorem State.popHost_resetPending : (s.popHost).resetPending = s.resetPending := rfl
@[simp] theorem State.popHost_clockHz : (s.popHost).clockHz = s.clockHz := rfl
@[simp] theorem State.popHost_singleStepEn : (s.popHost).singleStepEn = s.singleStepEn := rfl
@[simp] theorem State.popHost_singleStepReq : (s.popHost).singleStepReq = s.singleStepReq := rfl
@[simp] theorem State.popHost_shutdown : (s.popHost).shutdown = s.shutdown := rfl
@[simp] theorem State.popHost_lastInstrTick : (s.popHost).lastInstrTick = s.lastInstrTick := rfl
@[simp] theorem State.popHost_budget : (s.popHost).budget = s.budget := rfl
@[simp] theorem State.popHost_audioOn : (s.popHost).audioOn = s.audioOn := rfl
@[simp] theorem State.popHost_audioEdge : (s.popHost).audioEdge = s.audioEdge := rfl
@[simp] theorem State.popHost_status : (s.popHost).status = s.status := rfl
@[simp] theorem State.popHost_outcome : (s.popHost).outcome = s.outcome := rfl
@[simp] theorem State.popHost_snapshot : (s.popHost).snapshot = s.snapshot := rfl
@[simp] theorem State.popHost_hostQueue : (s.popHost).hostQueue = s.hostQueue.tail := rfl
@[simp] theorem State.popHost_loadReport : (s.popHost).loadReport = s.loadReport := rfl
@[simp] theorem State.popHost_frame : (s.popHost).frame = s.frame := rfl

/-! ### readyToStep -/

@[simp] theorem State.readyToStep_v : (s.readyToStep).v = s.v := rfl
@[simp] theorem State.readyToStep_i : (s.readyToStep).i = s.i := rfl
@[simp] theorem State.readyToStep_pc : (s.readyToStep).pc = s.pc := rfl
@[simp] theorem State.readyToStep_sp : (s.readyToStep).sp = s.sp := rfl
@[simp] theorem State.readyToStep_stack : (s.readyToStep).stack = s.stack := rfl
@[simp] theorem State.readyToStep_dtSet : (s.readyToStep).dtSet = s.dtSet := rfl
@[simp] theorem State.readyToStep_dtT0 : (s.readyToStep).dtT0 = s.dtT0 := rfl
@[simp] theorem State.readyToStep_stSet : (s.readyToStep).stSet = s.stSet := rfl
@[simp] theorem State.readyToStep_stT0 : (s.readyToStep).stT0 = s.stT0 := rfl
@[simp] theorem State.readyToStep_mem : (s.readyToStep).mem = s.mem := rfl
@[simp] theorem State.readyToStep_disp : (s.readyToStep).disp = s.disp := rfl
@[simp] theorem State.readyToStep_keys : (s.readyToStep).keys = s.keys := rfl
@[simp] theorem State.readyToStep_shiftUsesVy : (s.readyToStep).shiftUsesVy = s.shiftUsesVy := rfl
@[simp] theorem State.readyToStep_now : (s.readyToStep).now = s.now := rfl
@[simp] theorem State.readyToStep_rand : (s.readyToStep).rand = s.rand := rfl
@[simp] theorem State.readyToStep_envCount : (s.readyToStep).envCount = s.envCount := rfl
@[simp] theorem State.readyToStep_runState : (s.readyToStep).runState = .running := rfl
@[simp] theorem State.readyToStep_resetPending : (s.readyToStep).resetPending = s.resetPending := rfl
@[simp] theorem State.readyToStep_clockHz : (s.readyToStep).clockHz = s.clockHz := rfl
@[simp] theorem State.readyToStep_singleStepEn : (s.readyToStep).singleStepEn = s.singleStepEn := rfl
@[simp] theorem State.readyToStep_singleStepReq : (s.readyToStep).singleStepReq = s.singleStepReq := rfl
@[simp] theorem State.readyToStep_shutdown : (s.readyToStep).shutdown = s.shutdown := rfl
@[simp] theorem State.readyToStep_lastInstrTick : (s.readyToStep).lastInstrTick = s.lastInstrTick := rfl
@[simp] theorem State.readyToStep_budget : (s.readyToStep).budget = max 1 s.budget := rfl
@[simp] theorem State.readyToStep_audioOn : (s.readyToStep).audioOn = s.audioOn := rfl
@[simp] theorem State.readyToStep_audioEdge : (s.readyToStep).audioEdge = s.audioEdge := rfl
@[simp] theorem State.readyToStep_status : (s.readyToStep).status = s.status := rfl
@[simp] theorem State.readyToStep_outcome : (s.readyToStep).outcome = s.outcome := rfl
@[simp] theorem State.readyToStep_snapshot : (s.readyToStep).snapshot = s.snapshot := rfl
@[simp] theorem State.readyToStep_hostQueue : (s.readyToStep).hostQueue = [] := rfl
@[simp] theorem State.readyToStep_loadReport : (s.readyToStep).loadReport = s.loadReport := rfl
@[simp] theorem State.readyToStep_frame : (s.readyToStep).frame = s.frame := rfl

end Sys2Proof.Machine
end

