-- ==== Sys2Proof/Laws/Ops.lean ====
section
/-! SUPPORT. One lemma per shared operation: everything it can do. -/

namespace Sys2Proof.Machine

/-! ### Registers -/

theorem getV_setV (s : State) (x r : Reg) (b : Byte) :
    (s.setV x b).getV r = if r = x then b else s.getV r := by
  simp only [State.getV, State.setV_v, Vector.getElem_set, BitVec.toNat_inj, eq_comm (a := x)]

theorem getV_setFlagThenV (s : State) (x r : Reg) (f b : Byte) :
    (s.setFlagThenV x f b).getV r = if r = x then b else if r = 0xF#4 then f else s.getV r := by
  simp only [State.setFlagThenV, getV_setV]

/-- The registers are read from `v` alone. -/
theorem getV_congr {s t : State} (h : t.v = s.v) (r : Reg) : t.getV r = s.getV r := by
  simp only [State.getV, h]

theorem flagByte_toNat (c : Bool) : (flagByte c).toNat = if c = true then 1 else 0 := by
  cases c <;> rfl

/-! ### Memory -/

theorem memRead_congr {s t : State} (h : t.mem = s.mem) (a : Word) : t.memRead a = s.memRead a := by
  simp only [State.memRead, h]

theorem dataByte_eq (s : State) (k : Nat) : s.dataByte k = readByte s.mem ((s.i.toNat + k) % 4096) := by
  simp only [State.dataByte, State.dataAddr, State.memRead, maskAddr_add]

theorem fetchDecode_eq (s : State) : s.fetchDecode = decodeWord s.fetchWord := rfl

theorem fetchWord_congr {s t : State} (hm : t.mem = s.mem) (hp : t.pc = s.pc) : t.fetchWord = s.fetchWord := by
  simp only [State.fetchWord, State.memRead, hm, hp]

/-! ### The bulk load -/

/-- `loadFirst` writes `v` and nothing else. -/
theorem loadFirst_eq (s : State) (count : Nat) : s.loadFirst count = { s with v := (s.loadFirst count).v } := by
  induction count with
  | zero => rfl
  | succ k ih => rw [State.loadFirst, ih]; rfl

theorem getV_loadFirst (s : State) (count : Nat) (h : count ≤ 16) (r : Reg) :
    (s.loadFirst count).getV r = if r.toNat < count then s.dataByte r.toNat else s.getV r := by
  induction count with
  | zero => rfl
  | succ k ih =>
    have ih := ih (by omega)
    rw [State.loadFirst, getV_setV]
    by_cases hr : r = BitVec.ofNat 4 k
    · have : r.toNat = k := by rw [hr, BitVec.toNat_ofNat]; omega
      rw [if_pos hr, this, if_pos (Nat.lt_succ_self k)]
    · have hne : r.toNat ≠ k := fun e => hr (by rw [← e]; simp)
      have : r.toNat < k + 1 ↔ r.toNat < k := by omega
      simp [hr, ih, this]

/-! ### Stack -/

theorem stackTop_push (s : State) (a : Word) : (s.push a).stackTop = a :=
  Vector.getElem_set_self _

/-! ### Display -/

theorem pixel_togglePixel (d : Display) (cx cx' : Fin 64) (cy cy' : Fin 32) :
    pixel (togglePixel d cx cy) cx' cy' =
      if cx' = cx ∧ cy' = cy then !pixel d cx' cy' else pixel d cx' cy' := by
  simp only [pixel, togglePixel, Vector.getElem_set]
  by_cases hy : cy.val = cy'.val
  · have hy' : cy' = cy := Fin.ext hy.symm
    subst hy'
    by_cases hx : cx.val = cx'.val
    · have hx' : cx' = cx := Fin.ext hx.symm
      subst hx'; simp
    · have hx' : cx' ≠ cx := fun e => hx (by rw [e])
      simp [hx, hx']
  · have hy' : cy' ≠ cy := fun e => hy (by rw [e])
    simp [hy, hy']

theorem pixel_off (cx : Fin 64) (cy : Fin 32) : pixel Display.off cx cy = false := by
  simp [pixel, Display.off]

/-- Two displays with the same pixels are the same display. -/
theorem display_ext {d e : Display} (h : ∀ cx cy, pixel d cx cy = pixel e cx cy) : d = e := by
  apply Vector.ext
  intro j hj
  apply Vector.ext
  intro i hi
  exact h ⟨i, hi⟩ ⟨j, hj⟩

/-- Row `r`, column below `cols`, of the sprite byte `b` covers the pixel (R106). -/
def RowCovers (b : Byte) (px py r cols : Nat) (cx : Fin 64) (cy : Fin 32) : Prop :=
  ∃ c < cols, b.getLsbD (7 - c) = true ∧ cx.val = (px + c) % 64 ∧ cy.val = (py + r) % 32

theorem rowCovers_succ (b : Byte) (px py r c : Nat) (cx : Fin 64) (cy : Fin 32) :
    RowCovers b px py r (c + 1) cx cy ↔
      RowCovers b px py r c cx cy ∨
        (b.getLsbD (7 - c) = true ∧ cx.val = (px + c) % 64 ∧ cy.val = (py + r) % 32) := by
  constructor
  · rintro ⟨d, hd, h⟩
    rcases Nat.lt_succ_iff_lt_or_eq.mp hd with hd | rfl
    · exact .inl ⟨d, hd, h⟩
    · exact .inr h
  · rintro (⟨d, hd, h⟩ | h)
    · exact ⟨d, by omega, h⟩
    · exact ⟨c, by omega, h⟩

open Classical in
/-- One sprite row: it XORs the pixels it covers, and the hit flag gathers the covered pixels that were on. -/
theorem drawRow_spec (b : Byte) (px py r : Nat) (acc : Display × Bool) (cols : Nat) (hc : cols ≤ 8) :
    (∀ cx cy, pixel (drawRow b px py r cols acc).1 cx cy =
      (pixel acc.1 cx cy ^^ decide (RowCovers b px py r cols cx cy))) ∧
    ((drawRow b px py r cols acc).2 = true ↔
      acc.2 = true ∨ ∃ cx cy, RowCovers b px py r cols cx cy ∧ pixel acc.1 cx cy = true) := by
  induction cols with
  | zero => simp [drawRow, RowCovers]
  | succ c ih =>
    obtain ⟨ihp, ihh⟩ := ih (by omega)
    by_cases hb : b.getLsbD (7 - c) = true
    · simp only [drawRow, hb, if_true, drawPixel]
      have hcell : ∀ cx : Fin 64, ∀ cy : Fin 32, (cx = Fin.ofNat 64 (px + c) ∧ cy = Fin.ofNat 32 (py + r)) ↔
          (cx.val = (px + c) % 64 ∧ cy.val = (py + r) % 32) := fun cx cy => by
        rw [Fin.ext_iff, Fin.ext_iff]; rfl
      generalize Fin.ofNat 64 (px + c) = X at *
      generalize Fin.ofNat 32 (py + r) = Y at *
      have hXY := (hcell X Y).mp ⟨rfl, rfl⟩
      have hnew : ¬ RowCovers b px py r c X Y := by
        rintro ⟨d, hd, -, h, -⟩
        have := hXY.1
        omega
      have hs : ∀ cx cy, RowCovers b px py r (c + 1) cx cy ↔ RowCovers b px py r c cx cy ∨ (cx = X ∧ cy = Y) := by
        intro cx cy
        rw [rowCovers_succ, hcell, hb]
        simp
      refine ⟨fun cx cy => ?_, ?_⟩
      · rw [pixel_togglePixel, ihp]
        by_cases h : cx = X ∧ cy = Y
        · obtain ⟨rfl, rfl⟩ := h
          simp [hnew, hs]
        · simp [h, hs]
      · simp only [Bool.or_eq_true, ihh, ihp, hnew, hs, decide_false, Bool.xor_false]
        constructor
        · rintro ((h | ⟨cx, cy, hr, hp⟩) | h)
          · exact .inl h
          · exact .inr ⟨cx, cy, .inl hr, hp⟩
          · exact .inr ⟨X, Y, .inr ⟨rfl, rfl⟩, h⟩
        · rintro (h | ⟨cx, cy, hr | ⟨rfl, rfl⟩, hp⟩)
          · exact .inl (.inl h)
          · exact .inl (.inr ⟨cx, cy, hr, hp⟩)
          · exact .inr hp
    · have hs : ∀ cx cy, RowCovers b px py r (c + 1) cx cy ↔ RowCovers b px py r c cx cy := by
        intro cx cy
        rw [rowCovers_succ]
        exact or_iff_left (fun hh => hb hh.1)
      simp only [drawRow, hb, hs]
      exact ⟨ihp, ihh⟩

/-- The first `rows` rows of the sprite cover the pixel. -/
def State.RowsCover (s : State) (px py rows : Nat) (cx : Fin 64) (cy : Fin 32) : Prop :=
  ∃ r < rows, RowCovers (s.dataByte r) px py r 8 cx cy

theorem rowsCover_succ (s : State) (px py r : Nat) (cx : Fin 64) (cy : Fin 32) :
    s.RowsCover px py (r + 1) cx cy ↔
      s.RowsCover px py r cx cy ∨ RowCovers (s.dataByte r) px py r 8 cx cy := by
  constructor
  · rintro ⟨d, hd, h⟩
    rcases Nat.lt_succ_iff_lt_or_eq.mp hd with hd | rfl
    · exact .inl ⟨d, hd, h⟩
    · exact .inr h
  · rintro (⟨d, hd, h⟩ | h)
    · exact ⟨d, by omega, h⟩
    · exact ⟨r, by omega, h⟩

open Classical in
/-- The whole sprite, at most 32 rows: it XORs the pixels it covers, and it hits iff a covered pixel was on. -/
theorem drawRows_spec (s : State) (px py rows : Nat) (hr : rows ≤ 32) :
    (∀ cx cy, pixel (s.drawRows px py rows).1 cx cy = (pixel s.disp cx cy ^^ decide (s.RowsCover px py rows cx cy))) ∧
    ((s.drawRows px py rows).2 = true ↔
      ∃ cx cy, s.RowsCover px py rows cx cy ∧ pixel s.disp cx cy = true) := by
  induction rows with
  | zero => simp [State.drawRows, State.RowsCover]
  | succ r ih =>
    obtain ⟨ihp, ihh⟩ := ih (by omega)
    obtain ⟨hp, hh⟩ := drawRow_spec (s.dataByte r) px py r (s.drawRows px py r) 8 le_rfl
    have hdisj : ∀ cx cy, RowCovers (s.dataByte r) px py r 8 cx cy → ¬ s.RowsCover px py r cx cy := by
      rintro cx cy ⟨c, -, -, -, hy⟩ ⟨r', hr', c', -, -, -, hy'⟩
      omega
    refine ⟨fun cx cy => ?_, ?_⟩
    · rw [State.drawRows, hp, ihp]
      by_cases h : RowCovers (s.dataByte r) px py r 8 cx cy
      · simp [h, hdisj cx cy h, rowsCover_succ]
      · simp [h, rowsCover_succ]
    · rw [State.drawRows, hh, ihh]
      constructor
      · rintro (⟨cx, cy, h, hon⟩ | ⟨cx, cy, h, hon⟩)
        · exact ⟨cx, cy, (rowsCover_succ ..).mpr (.inl h), hon⟩
        · rw [ihp, decide_eq_false (hdisj cx cy h), Bool.xor_false] at hon
          exact ⟨cx, cy, (rowsCover_succ ..).mpr (.inr h), hon⟩
      · rintro ⟨cx, cy, h, hon⟩
        rcases (rowsCover_succ ..).mp h with h | h
        · exact .inl ⟨cx, cy, h, hon⟩
        · refine .inr ⟨cx, cy, h, ?_⟩
          rw [ihp, decide_eq_false (hdisj cx cy h), Bool.xor_false]
          exact hon

end Sys2Proof.Machine
end

