-- ==== Sys2Proof/Laws/Driver.lean ====
section
/-! SUPPORT. The step by whose turn it is, the tick by its branches, and runs of steps. -/

namespace Sys2Proof.Machine

variable {s : State}

theorem step_of_host {m : HostMove} (h : s.turn = .host m) : step s = .next (s.popHost.hostMove m) := by
  simp only [step, h]

theorem step_of_idle (h : s.turn = .idle) : step s = .next s.popHost := by
  simp only [step, h]

theorem step_of_tick (h : s.turn = .tick) : step s = .next s.popHost.tick := by
  simp only [step, h]

theorem step_of_instr (h : s.turn = .instr) : step s = instrStep s.popHost := by
  simp only [step, h]

/-- With no move of the host waiting the thread goes on. -/
theorem turn_of_empty (h : s.hostQueue = []) : s.turn = s.threadTurn := by
  simp only [State.turn, h]

/-- A move of the host other than `pass` at the head of the queue comes first. -/
theorem turn_of_move {m : HostMove} (h : s.hostQueue.head? = some m) (hm : m ≠ .pass) : s.turn = .host m := by
  unfold State.turn
  cases hq : s.hostQueue with
  | nil => simp [hq] at h
  | cons a rest =>
    obtain rfl : a = m := by simpa [hq] using h
    cases a <;> first | rfl | exact absurd rfl hm

/-- The host's turn is that of the head of its queue. -/
theorem head_of_host {m : HostMove} (h : s.turn = .host m) : s.hostQueue.head? = some m := by
  unfold State.turn State.threadTurn at h
  split at h
  · split at h
    · cases h
    · split at h <;> cases h
  · split at h
    · cases h
    · split at h <;> cases h
  · rename_i hq
    cases h
    rw [hq]
    rfl

theorem popHost_of_empty (h : s.hostQueue = []) : s.popHost = s := by
  unfold State.popHost
  rw [h, List.tail_nil, ← h]

theorem tick_of_shutdown (h : s.shutdown = true) : s.tick = s := if_pos h

theorem tick_of_running (h : s.shutdown = false) : s.tick = s.sleepTick.consumeReset.evalAudio.grantBudget :=
  if_neg (by rw [h]; exact Bool.false_ne_true)

theorem consumeReset_pending (h : s.resetPending = true) : s.consumeReset = s.performReset := if_pos h

theorem consumeReset_none (h : s.resetPending = false) : s.consumeReset = s :=
  if_neg (by rw [h]; exact Bool.false_ne_true)

theorem start_of_idle (h : s.runState = .idle) :
    s.start = { s.sampleNow with runState := .running, lastInstrTick := s.sampleNow.now } := by
  simp only [State.start, h]

theorem start_of_running (h : s.runState = .running) : s.start = s := by
  simp only [State.start, h]

theorem gatedBudget_free (h : s.singleStepEn = false) : s.gatedBudget = s.rawBudget :=
  if_neg (by rw [h]; exact Bool.false_ne_true)

theorem gatedBudget_requested (h : s.singleStepEn = true) (hq : s.singleStepReq = true) :
    s.gatedBudget = min s.rawBudget 1 := by
  simp only [State.gatedBudget, h, hq, if_true]

theorem gatedBudget_unrequested (h : s.singleStepEn = true) (hq : s.singleStepReq = false) : s.gatedBudget = 0 := by
  simp only [State.gatedBudget, h, hq, if_true, Bool.false_eq_true, if_false]

theorem clampClock_bounds (hz : Int) : 1 ≤ clampClock hz ∧ clampClock hz ≤ clockHzMax := by
  have : 1 ≤ clockHzMax := Nat.le_max_left _ _
  unfold clampClock
  omega

/-- One step more, on any machine of the interface. -/
theorem run_succ (M : Host.Core) (k : Nat) {s t : M.State} (h : M.step s = .next t) : M.run (k + 1) s = M.run k t := by
  rw [Host.Core.run, h]

end Sys2Proof.Machine
end

