-- ==== Sys2Proof/Laws/PerInstr.lean ====
section
/-! SUPPORT. The family MatchesRow: the word of every instruction carries exactly its row's literal bits, `w AND mask = match`
(spec/30_encoding.md R49), one lemma per constructor. -/

namespace Sys2Proof.Laws

/-- The word of `i` matches the opcode map's row of `i` (R49). -/
def MatchesRow.Statement (i : Instr) : Prop := encode i &&& (rowOf i).2 = (rowOf i).1

theorem MatchesRow.cls : MatchesRow.Statement .cls := rfl

theorem MatchesRow.ret : MatchesRow.Statement .ret := rfl

theorem MatchesRow.jp (nnn : Addr12) : MatchesRow.Statement (.jp nnn) := wordNnn_mask _ _

theorem MatchesRow.call (nnn : Addr12) : MatchesRow.Statement (.call nnn) := wordNnn_mask _ _

theorem MatchesRow.seImm (x : Reg) (kk : Byte) : MatchesRow.Statement (.seImm x kk) := wordXkk_mask _ _ _

theorem MatchesRow.sneImm (x : Reg) (kk : Byte) : MatchesRow.Statement (.sneImm x kk) := wordXkk_mask _ _ _

theorem MatchesRow.seReg (x y : Reg) : MatchesRow.Statement (.seReg x y) := wordXy_mask _ _ _ _

theorem MatchesRow.ldImm (x : Reg) (kk : Byte) : MatchesRow.Statement (.ldImm x kk) := wordXkk_mask _ _ _

theorem MatchesRow.addImm (x : Reg) (kk : Byte) : MatchesRow.Statement (.addImm x kk) := wordXkk_mask _ _ _

theorem MatchesRow.ldReg (x y : Reg) : MatchesRow.Statement (.ldReg x y) := wordXy_mask _ _ _ _

theorem MatchesRow.orReg (x y : Reg) : MatchesRow.Statement (.orReg x y) := wordXy_mask _ _ _ _

theorem MatchesRow.andReg (x y : Reg) : MatchesRow.Statement (.andReg x y) := wordXy_mask _ _ _ _

theorem MatchesRow.xorReg (x y : Reg) : MatchesRow.Statement (.xorReg x y) := wordXy_mask _ _ _ _

theorem MatchesRow.addReg (x y : Reg) : MatchesRow.Statement (.addReg x y) := wordXy_mask _ _ _ _

theorem MatchesRow.sub (x y : Reg) : MatchesRow.Statement (.sub x y) := wordXy_mask _ _ _ _

theorem MatchesRow.shr (x y : Reg) : MatchesRow.Statement (.shr x y) := wordXy_mask _ _ _ _

theorem MatchesRow.subn (x y : Reg) : MatchesRow.Statement (.subn x y) := wordXy_mask _ _ _ _

theorem MatchesRow.shl (x y : Reg) : MatchesRow.Statement (.shl x y) := wordXy_mask _ _ _ _

theorem MatchesRow.sneReg (x y : Reg) : MatchesRow.Statement (.sneReg x y) := wordXy_mask _ _ _ _

theorem MatchesRow.ldI (nnn : Addr12) : MatchesRow.Statement (.ldI nnn) := wordNnn_mask _ _

theorem MatchesRow.jpV0 (nnn : Addr12) : MatchesRow.Statement (.jpV0 nnn) := wordNnn_mask _ _

theorem MatchesRow.rnd (x : Reg) (kk : Byte) : MatchesRow.Statement (.rnd x kk) := wordXkk_mask _ _ _

theorem MatchesRow.drw (x y : Reg) (n : Nibble) : MatchesRow.Statement (.drw x y n) := wordXyn_mask _ _ _ _

theorem MatchesRow.skp (x : Reg) : MatchesRow.Statement (.skp x) := wordX_mask _ _ _

theorem MatchesRow.sknp (x : Reg) : MatchesRow.Statement (.sknp x) := wordX_mask _ _ _

theorem MatchesRow.ldVxDt (x : Reg) : MatchesRow.Statement (.ldVxDt x) := wordX_mask _ _ _

theorem MatchesRow.ldVxK (x : Reg) : MatchesRow.Statement (.ldVxK x) := wordX_mask _ _ _

theorem MatchesRow.ldDtVx (x : Reg) : MatchesRow.Statement (.ldDtVx x) := wordX_mask _ _ _

theorem MatchesRow.ldStVx (x : Reg) : MatchesRow.Statement (.ldStVx x) := wordX_mask _ _ _

theorem MatchesRow.addI (x : Reg) : MatchesRow.Statement (.addI x) := wordX_mask _ _ _

theorem MatchesRow.ldF (x : Reg) : MatchesRow.Statement (.ldF x) := wordX_mask _ _ _

theorem MatchesRow.ldB (x : Reg) : MatchesRow.Statement (.ldB x) := wordX_mask _ _ _

theorem MatchesRow.storeRegs (x : Reg) : MatchesRow.Statement (.storeRegs x) := wordX_mask _ _ _

theorem MatchesRow.loadRegs (x : Reg) : MatchesRow.Statement (.loadRegs x) := wordX_mask _ _ _

theorem MatchesRow.sys (nnn : Addr12) : MatchesRow.Statement (.sys nnn) := wordNnn_mask _ _

theorem MatchesRow.sentinel : MatchesRow.Statement .sentinel := rfl

end Sys2Proof.Laws
end

