-- ==== Sys2Proof/Laws/Timers.lean ====
section
/-! SUPPORT. The timer value function in natural numbers and in integers. -/

namespace Sys2Proof.Machine

/-- The value before it is a byte: it always fits. -/
theorem timerValue_toNat (set : Byte) (t0 t : Instant) :
    (timerValue set t0 t).toNat = set.toNat - ⌊60 * (t - t0)⌋₊ := by
  have := set.isLt
  simp only [timerValue, BitVec.toNat_ofNat]
  omega

/-- Sixty times a span of time not below 0: the floor in natural numbers is the floor in integers. -/
theorem floor_elapsed {t0 t : Instant} (h : t0 ≤ t) : (⌊60 * (t - t0)⌋₊ : Int) = ⌊60 * (t - t0)⌋ :=
  Int.natCast_floor_eq_floor (mul_nonneg (by norm_num) (sub_nonneg.mpr h))

end Sys2Proof.Machine
end

