-- ==== Sys2Proof/Tests/Slice0.lean ====
section
/-! SUPPORT. Tests. Expected values are those of spec/95_test_vectors.md (vector names S, T, P) and of the opcode map of
spec/30_encoding.md R49, words written out bit by bit; then one witness for each obligation that has hypotheses. -/

open Sys2Proof Sys2Proof.Machine

namespace Sys2Proof.Tests

/-- The state of a result, or the reset state. -/
def after (r : Result) : State :=
  match r with
  | .next t => t
  | .fault _ => State.reset
  | .refused _ => State.reset

/-- `i` executed in `s`. -/
def ran (i : Instr) (s : State) : State := after (exec i s)

/-- Reset with `V[1]`, `V[2]` and `VF` set. -/
def regs (a b f : Byte) : State := ((State.reset.setV 0x1#4 a).setV 0x2#4 b).setV 0xF#4 f

/-- Reset with `V[0]` and `I` set. -/
def data (a : Byte) (i : Word) : State := (State.reset.setV 0x0#4 a).setI i

/-- Reset with `PC`, `SP` and one stack slot set. -/
def calls (pc : Word) (sp : Byte) (slot : Fin 16) (ret : Word) : State :=
  { State.reset with pc := pc, sp := sp, stack := State.reset.stack.set slot.val ret slot.isLt }

/-- `s` with these keys down. -/
def press (ks : List Nat) (s : State) : State := { s with keys := Vector.ofFn (fun k => decide (k.val ∈ ks)) }

/-- Reset with the delay timer's anchors and the instant of the sample. -/
def delay (set : Byte) (t0 now : Instant) : State := { State.reset with dtSet := set, dtT0 := t0, now := now }

/-- Reset with a word where the next instruction is fetched, the executor's turn. -/
def word (w : Nat) : State := State.reset.withFetchWord 16 w

/-- Reset and started: Running, no budget, so the driver's turn. -/
def ticking : State := { State.reset with runState := .running }

/-! ### WellFormed -/

theorem test_illformed_sys_refused :
    Instr.wellFormed (.sys 0x000#12) = false ∧ Instr.wellFormed (.sys 0x0E0#12) = false ∧
      Instr.wellFormed (.sys 0x0EE#12) = false ∧ Instr.wellFormed (.sys 0x0E1#12) = true := by decide

/-! ### Decode: every row of the opcode map -/

theorem test_decode_control :
    decodeWord 0b0000000011101110#16 = .ok .ret ∧ decodeWord 0b0001001000000100#16 = .ok (.jp 0x204#12) ∧
      decodeWord 0b0010001100000000#16 = .ok (.call 0x300#12) ∧
      decodeWord 0b1011001100000000#16 = .ok (.jpV0 0x300#12) := by decide

theorem test_decode_skips :
    decodeWord 0b0011000100000000#16 = .ok (.seImm 0x1#4 0x00#8) ∧
      decodeWord 0b0100101000000101#16 = .ok (.sneImm 0xA#4 0x05#8) ∧
      decodeWord 0b0101000100100000#16 = .ok (.seReg 0x1#4 0x2#4) ∧
      decodeWord 0b1001000100100000#16 = .ok (.sneReg 0x1#4 0x2#4) := by decide

theorem test_decode_loads :
    decodeWord 0b0110000100000101#16 = .ok (.ldImm 0x1#4 0x05#8) ∧
      decodeWord 0b0111000111111111#16 = .ok (.addImm 0x1#4 0xFF#8) ∧
      decodeWord 0b1000001111110000#16 = .ok (.ldReg 0x3#4 0xF#4) ∧
      decodeWord 0b1100000100001111#16 = .ok (.rnd 0x1#4 0x0F#8) := by decide

theorem test_decode_alu :
    decodeWord 0b1000000100100001#16 = .ok (.orReg 0x1#4 0x2#4) ∧
      decodeWord 0b1000000100100010#16 = .ok (.andReg 0x1#4 0x2#4) ∧
      decodeWord 0b1000000100100011#16 = .ok (.xorReg 0x1#4 0x2#4) ∧
      decodeWord 0b1000000100100100#16 = .ok (.addReg 0x1#4 0x2#4) ∧
      decodeWord 0b1000000100100101#16 = .ok (.sub 0x1#4 0x2#4) ∧
      decodeWord 0b1000000100100110#16 = .ok (.shr 0x1#4 0x2#4) ∧
      decodeWord 0b1000000100100111#16 = .ok (.subn 0x1#4 0x2#4) ∧
      decodeWord 0b1000000100101110#16 = .ok (.shl 0x1#4 0x2#4) := by decide

theorem test_decode_address :
    decodeWord 0b1010001100000000#16 = .ok (.ldI 0x300#12) ∧ decodeWord 0b1111001000011110#16 = .ok (.addI 0x2#4) ∧
      decodeWord 0b1111000000101001#16 = .ok (.ldF 0x0#4) ∧ decodeWord 0b1111000000110011#16 = .ok (.ldB 0x0#4) ∧
      decodeWord 0b1111000101010101#16 = .ok (.storeRegs 0x1#4) ∧
      decodeWord 0b1111001001100101#16 = .ok (.loadRegs 0x2#4) := by decide

theorem test_decode_display :
    decodeWord 0b0000000011100000#16 = .ok .cls ∧
      decodeWord 0b1101000100100010#16 = .ok (.drw 0x1#4 0x2#4 0x2#4) := by decide

theorem test_decode_keypad_timers :
    decodeWord 0b1110000110011110#16 = .ok (.skp 0x1#4) ∧ decodeWord 0b1110000110100001#16 = .ok (.sknp 0x1#4) ∧
      decodeWord 0b1111000100000111#16 = .ok (.ldVxDt 0x1#4) ∧ decodeWord 0b1111001000001010#16 = .ok (.ldVxK 0x2#4) ∧
      decodeWord 0b1111000000010101#16 = .ok (.ldDtVx 0x0#4) ∧
      decodeWord 0b1111000100011000#16 = .ok (.ldStVx 0x1#4) := by decide

theorem test_decode_no_instruction :
    decodeWord 0b0000000000000000#16 = .ok .sentinel ∧ decodeWord 0b0000000100100011#16 = .ok (.sys 0x123#12) ∧
      decodeWord 0b0000000111100000#16 = .ok (.sys 0x1E0#12) := by decide

/-- T2 to T7, R51. -/
theorem test_decode_unrecognized :
    decodeWord 0x5121#16 = .error .class5 ∧ decodeWord 0x9AB5#16 = .error .class9 ∧
      decodeWord 0x8128#16 = .error .class8 ∧ decodeWord 0x812F#16 = .error .class8 ∧
      decodeWord 0xE19F#16 = .error .classE ∧ decodeWord 0xF1FF#16 = .error .classF ∧
      decodeBytes [0x12#8] = .error .truncated := by decide

theorem test_decode_of_encode : decodeBytes (encodeBytes (.drw 0x1#4 0xE#4 0x7#4)) = .ok (.drw 0x1#4 0xE#4 0x7#4) := by
  decide

theorem test_table_word : decodeTableWord 16 0x8124 = some (.addReg 0x1#4 0x2#4) ∧ decodeTableWord 16 0x8128 = none := by
  decide

/-! ### Fetch: T12 to T15 -/

theorem test_fetch_wraps :
    ({ State.reset with pc := 0x0FFF#16, mem := [(0x000, 0x34#8), (0xFFF, 0x12#8)] } : State).fetchDecode =
      .ok (.jp 0x234#12) := by decide

theorem test_fetch_masks_and_odd :
    ({ State.reset with pc := 0x10FE#16, mem := [(0x0FE, 0x60#8), (0x0FF, 0x07#8)] } : State).fetchWord = 0x6007#16 ∧
      ({ State.reset with pc := 0x0201#16, mem := [(0x201, 0x61#8), (0x202, 0x09#8)] } : State).fetchWord = 0x6109#16 := by
  decide

/-- T15: `PC` itself wraps modulo 2^16. -/
theorem test_pc_wraps : (ran (.ldImm 0x0#4 0x01#8) { State.reset with pc := 0xFFFE#16 }).pc = 0x0000#16 := by decide

/-- T1 and T4 as steps; the snapshot is taken and the budget ends or goes on. -/
theorem test_step_no_effect :
    (after (step (word 0x0000))).pc = 0x200#16 ∧ (after (step (word 0x0000))).outcome = some .noInstruction ∧
      (after (step (word 0x8128))).pc = 0x200#16 ∧ (after (step (word 0x8128))).outcome = some .ignored := by decide

theorem test_step_runs :
    (after (step (word 0x6105))).getV 0x1#4 = 0x05#8 ∧ (after (step (word 0x6105))).pc = 0x202#16 := by decide

/-- S8. -/
theorem test_step_cls :
    (after (step (word 0x00E0))).pc = 0x202#16 ∧ (after (step (word 0x00E0))).outcome = some .executed := by decide

/-! ### Control transfer -/

theorem test_ret : -- T30, T32
    (ran .ret (calls 0x300#16 0x01#8 1 0x0202#16)).pc = 0x202#16 ∧ (ran .ret (calls 0x300#16 0x01#8 1 0x0202#16)).sp = 0x00#8 ∧
      (ran .ret (calls 0x300#16 0x10#8 0 0x0252#16)).pc = 0x252#16 ∧
      (ran .ret (calls 0x300#16 0x10#8 0 0x0252#16)).sp = 0x0F#8 := by decide

theorem test_ret_empty : -- T31
    (ran .ret (calls 0x300#16 0x00#8 0 0x0202#16)).pc = 0x300#16 ∧
      (ran .ret (calls 0x300#16 0x00#8 0 0x0202#16)).outcome = some .executed := by decide

theorem test_jp : (ran (.jp 0xABD#12) State.reset).pc = 0x0ABD#16 := by decide -- T22

theorem test_jpV0 : -- T24, T25
    (ran (.jpV0 0xFFF#12) (data 0xFF#8 0x0000#16)).pc = 0x10FE#16 ∧
      (ran (.jpV0 0x300#12) (State.reset.setV 0x3#4 0x10#8)).pc = 0x0300#16 := by decide

theorem test_call : -- T26, S10
    (ran (.call 0x300#12) State.reset).sp = 0x01#8 ∧ (ran (.call 0x300#12) State.reset).pc = 0x300#16 ∧
      (ran (.call 0x300#12) State.reset).stack = State.reset.stack.set 1 0x0202#16 := by decide

theorem test_call_wraps : -- T28, T29
    (ran (.call 0x300#12) (calls 0x250#16 0x10#8 1 0x0202#16)).stack = State.reset.stack.set 1 0x0252#16 ∧
      (ran (.call 0x300#12) (calls 0x250#16 0xFF#8 1 0x0000#16)).sp = 0x00#8 ∧
      (ran (.call 0x300#12) (calls 0x250#16 0xFF#8 1 0x0000#16)).stack = State.reset.stack.set 0 0x0252#16 := by decide

theorem test_seImm : -- T33, T34 from 0x200; T42
    (ran (.seImm 0x1#4 0x00#8) State.reset).pc = 0x204#16 ∧ (ran (.seImm 0x1#4 0x00#8) (regs 0x01#8 0x00#8 0x00#8)).pc = 0x202#16 ∧
      (ran (.seImm 0xF#4 0x01#8) (regs 0x00#8 0x00#8 0x01#8)).pc = 0x204#16 := by decide

theorem test_skip_past_the_top : -- T43
    (ran (.seImm 0x0#4 0x00#8) { State.reset with pc := 0x0FFE#16 }).pc = 0x1002#16 := by decide

theorem test_sneImm : -- T35, T36
    (ran (.sneImm 0xA#4 0x05#8) (State.reset.setV 0xA#4 0x06#8)).pc = 0x204#16 ∧
      (ran (.sneImm 0xA#4 0x05#8) (State.reset.setV 0xA#4 0x05#8)).pc = 0x202#16 := by decide

theorem test_seReg : -- T37, T38, T39
    (ran (.seReg 0x1#4 0x2#4) (regs 0x7F#8 0x7F#8 0x00#8)).pc = 0x204#16 ∧
      (ran (.seReg 0x1#4 0x2#4) (regs 0x7F#8 0x80#8 0x00#8)).pc = 0x202#16 ∧
      (ran (.seReg 0x3#4 0x3#4) State.reset).pc = 0x204#16 := by decide

theorem test_sneReg : -- T40, T41
    (ran (.sneReg 0x1#4 0x2#4) (regs 0x01#8 0x02#8 0x00#8)).pc = 0x204#16 ∧
      (ran (.sneReg 0x1#4 0x2#4) (regs 0x02#8 0x02#8 0x00#8)).pc = 0x202#16 := by decide

/-! ### Loads and ALU: the registers after, as `regs` -/

theorem test_ldImm : -- T50, T51
    (ran (.ldImm 0x1#4 0x05#8) State.reset).v = (regs 0x05#8 0x00#8 0x00#8).v ∧
      (ran (.ldImm 0xF#4 0xFF#8) State.reset).v = (regs 0x00#8 0x00#8 0xFF#8).v := by decide

theorem test_addImm : -- T52, T53
    (ran (.addImm 0x1#4 0xFF#8) (regs 0x05#8 0x00#8 0x00#8)).v = (regs 0x04#8 0x00#8 0x00#8).v ∧
      (ran (.addImm 0x1#4 0x01#8) (regs 0xFF#8 0x00#8 0x00#8)).v = (regs 0x00#8 0x00#8 0x00#8).v := by decide

theorem test_ldReg : -- T54
    (ran (.ldReg 0x1#4 0xF#4) (regs 0x77#8 0x00#8 0x01#8)).v = (regs 0x01#8 0x00#8 0x01#8).v := by decide

theorem test_orReg : -- T55
    (ran (.orReg 0x1#4 0x2#4) (regs 0xF0#8 0x0F#8 0x01#8)).v = (regs 0xFF#8 0x0F#8 0x01#8).v := by decide

theorem test_andReg : -- T56
    (ran (.andReg 0x1#4 0x2#4) (regs 0xF0#8 0x3C#8 0x01#8)).v = (regs 0x30#8 0x3C#8 0x01#8).v := by decide

theorem test_xorReg : -- T57
    (ran (.xorReg 0x1#4 0x2#4) (regs 0xF0#8 0x3C#8 0x01#8)).v = (regs 0xCC#8 0x3C#8 0x01#8).v := by decide

theorem test_addReg : -- T59, T59a
    (ran (.addReg 0x1#4 0x2#4) (regs 0xFF#8 0x01#8 0x00#8)).v = (regs 0x00#8 0x01#8 0x01#8).v ∧
      (ran (.addReg 0x1#4 0x2#4) (regs 0x7F#8 0x80#8 0x01#8)).v = (regs 0xFF#8 0x80#8 0x00#8).v := by decide

theorem test_addReg_flag_register : -- T59c, T59d, T59e
    (ran (.addReg 0x1#4 0xF#4) (regs 0xFF#8 0x00#8 0x01#8)).v = (regs 0x00#8 0x00#8 0x01#8).v ∧
      (ran (.addReg 0xF#4 0x1#4) (regs 0xF5#8 0x00#8 0x10#8)).v = (regs 0xF5#8 0x00#8 0x05#8).v ∧
      (ran (.addReg 0xF#4 0xF#4) (regs 0x00#8 0x00#8 0x90#8)).v = (regs 0x00#8 0x00#8 0x20#8).v := by decide

theorem test_sub : -- T59f, T59g, T59h
    (ran (.sub 0x1#4 0x2#4) (regs 0x03#8 0x05#8 0x01#8)).v = (regs 0xFE#8 0x05#8 0x00#8).v ∧
      (ran (.sub 0x1#4 0x2#4) (regs 0x05#8 0x03#8 0x00#8)).v = (regs 0x02#8 0x03#8 0x01#8).v ∧
      (ran (.sub 0x1#4 0x2#4) (regs 0x07#8 0x07#8 0x01#8)).v = (regs 0x00#8 0x07#8 0x00#8).v := by decide

theorem test_sub_flag_register : -- T59j, T59k
    (ran (.sub 0x1#4 0xF#4) (regs 0x05#8 0x00#8 0x01#8)).v = (regs 0x04#8 0x00#8 0x01#8).v ∧
      (ran (.sub 0xF#4 0x1#4) (regs 0x02#8 0x00#8 0x01#8)).v = (regs 0x02#8 0x00#8 0xFF#8).v := by decide

theorem test_subn : -- T59l, T59m, T59n
    (ran (.subn 0x1#4 0x2#4) (regs 0x03#8 0x05#8 0x00#8)).v = (regs 0x02#8 0x05#8 0x01#8).v ∧
      (ran (.subn 0x1#4 0x2#4) (regs 0x05#8 0x03#8 0x01#8)).v = (regs 0xFE#8 0x03#8 0x00#8).v ∧
      (ran (.subn 0x1#4 0x2#4) (regs 0x07#8 0x07#8 0x01#8)).v = (regs 0x00#8 0x07#8 0x00#8).v := by decide

theorem test_shr : -- T59o, T59p
    (ran (.shr 0x1#4 0x2#4) { regs 0x05#8 0x0A#8 0x00#8 with shiftUsesVy := false }).v = (regs 0x02#8 0x0A#8 0x01#8).v ∧
      (ran (.shr 0x1#4 0x2#4) { regs 0x05#8 0x0A#8 0x01#8 with shiftUsesVy := true }).v =
        (regs 0x05#8 0x0A#8 0x00#8).v := by decide

theorem test_shr_flag_register : -- T59t
    (ran (.shr 0xF#4 0x0#4) { regs 0x00#8 0x00#8 0x02#8 with shiftUsesVy := false }).v = (regs 0x00#8 0x00#8 0x01#8).v := by
  decide

theorem test_shl : -- T59u, T59v
    (ran (.shl 0x1#4 0x2#4) { regs 0x81#8 0x40#8 0x00#8 with shiftUsesVy := false }).v = (regs 0x02#8 0x40#8 0x01#8).v ∧
      (ran (.shl 0x1#4 0x2#4) { regs 0x81#8 0x40#8 0x01#8 with shiftUsesVy := true }).v =
        (regs 0x80#8 0x40#8 0x00#8).v := by decide

theorem test_rnd : -- T59y, T59z
    (ran (.rnd 0x1#4 0x0F#8) { State.reset with rand := 0xA7#8 }).v = (regs 0x07#8 0x00#8 0x00#8).v ∧
      (ran (.rnd 0x1#4 0x00#8) { State.reset with rand := 0xA7#8 }).v = State.reset.v := by decide

/-! ### Address register and memory -/

theorem test_ldI : (ran (.ldI 0x300#12) (data 0x00#8 0xFFFF#16)).i = 0x0300#16 := by decide -- T70

theorem test_addI : -- T72, T73
    (ran (.addI 0x0#4) (data 0x01#8 0x0FFF#16)).i = 0x1000#16 ∧ (ran (.addI 0x0#4) (data 0x01#8 0x0FFF#16)).getV 0xF#4 = 0x00#8 ∧
      (ran (.addI 0x0#4) (data 0x01#8 0xFFFF#16)).i = 0x0000#16 := by decide

theorem test_ldF : -- T74, T76, T77
    (ran (.ldF 0x0#4) (data 0x05#8 0x0000#16)).i = 0x0119#16 ∧ (ran (.ldF 0x0#4) (data 0x10#8 0x0000#16)).i = 0x0150#16 ∧
      (ran (.ldF 0x0#4) (data 0xFF#8 0x0000#16)).i = 0x05FB#16 := by decide

theorem test_ldB : -- T78, S6, T82, T81
    (ran (.ldB 0x0#4) (data 0xFF#8 0x0300#16)).mem = [(0x300, 0x02#8), (0x301, 0x05#8), (0x302, 0x05#8)] ∧
      (ran (.ldB 0x0#4) (data 0x05#8 0x0300#16)).mem = [(0x302, 0x05#8)] ∧
      (ran (.ldB 0x0#4) (data 0xEA#8 0x1300#16)).mem = [(0x300, 0x02#8), (0x301, 0x03#8), (0x302, 0x04#8)] ∧
      (ran (.ldB 0x0#4) (data 0xEA#8 0x1300#16)).i = 0x1300#16 ∧
      (ran (.ldB 0x0#4) (data 0x80#8 0x0FFE#16)).mem = [(0x000, 0x08#8), (0xFFE, 0x01#8), (0xFFF, 0x02#8)] := by decide

/-- T84, T85's wrap with two registers; over the font, a byte equal to the initial contents is not listed. -/
theorem test_storeRegs :
    (ran (.storeRegs 0x0#4) (data 0x12#8 0x0400#16)).mem = [(0x400, 0x12#8)] ∧
      (ran (.storeRegs 0x1#4) ((data 0x6A#8 0x0FFF#16).setV 0x1#4 0x55#8)).mem = [(0x000, 0x55#8), (0xFFF, 0x6A#8)] ∧
      (ran (.storeRegs 0x1#4) ((data 0x6A#8 0x0FFF#16).setV 0x1#4 0x55#8)).i = 0x0FFF#16 ∧
      (ran (.storeRegs 0x1#4) ((data 0x11#8 0x0100#16).setV 0x1#4 0x90#8)).mem = [(0x100, 0x11#8)] := by decide

theorem test_loadRegs : -- T86
    (ran (.loadRegs 0x2#4) { (data 0x00#8 0x0300#16).setV 0x3#4 0x77#8 with
      mem := [(0x300, 0x02#8), (0x301, 0x03#8), (0x302, 0x04#8)] }).v =
      ((((State.reset.setV 0x0#4 0x02#8).setV 0x1#4 0x03#8).setV 0x2#4 0x04#8).setV 0x3#4 0x77#8).v := by decide

theorem test_loadRegs_font : -- T87
    (ran (.loadRegs 0xF#4) (data 0x00#8 0x0100#16)).v.toList =
      [0xF0#8, 0x90#8, 0x90#8, 0x90#8, 0xF0#8, 0x20#8, 0x60#8, 0x20#8, 0x20#8, 0x70#8, 0xF0#8, 0x10#8, 0xF0#8, 0x80#8,
        0xF0#8, 0xF0#8] := by decide

/-! ### Display -/

/-- T60's state: `V[0]` = 62, `V[1]` = 31, the byte F0 at `I` = 0x300, `VF` = 2 before. -/
def corner : State :=
  { ((data 0x3E#8 0x0300#16).setV 0x1#4 0x1F#8).setV 0xF#4 0x02#8 with mem := [(0x300, 0xF0#8)] }

theorem test_cls : pixel (ran .cls { State.reset with disp := togglePixel Display.off 3 0 }).disp 3 0 = false := by -- T11
  decide

theorem test_drw_wraps : -- T60
    (ran (.drw 0x0#4 0x1#4 0x1#4) corner).disp =
        togglePixel (togglePixel (togglePixel (togglePixel Display.off 62 31) 63 31) 0 31) 1 31 ∧
      (ran (.drw 0x0#4 0x1#4 0x1#4) corner).getV 0xF#4 = 0x00#8 := by decide

theorem test_drw_collides : -- T61, T62
    (ran (.drw 0x0#4 0x1#4 0x1#4) (ran (.drw 0x0#4 0x1#4 0x1#4) corner)).disp = Display.off ∧
      (ran (.drw 0x0#4 0x1#4 0x1#4) (ran (.drw 0x0#4 0x1#4 0x1#4) corner)).getV 0xF#4 = 0x01#8 ∧
      (ran (.drw 0x0#4 0x1#4 0x0#4) corner).getV 0xF#4 = 0x00#8 := by decide

/-! ### Keypad and timers -/

theorem test_skp : -- T90, T91, T92
    (ran (.skp 0x1#4) (press [5] (regs 0x05#8 0x00#8 0x00#8))).pc = 0x204#16 ∧
      (ran (.skp 0x1#4) (regs 0x05#8 0x00#8 0x00#8)).pc = 0x202#16 ∧
      (ran (.skp 0x1#4) (press [10] (regs 0x1A#8 0x00#8 0x00#8))).pc = 0x204#16 := by decide

theorem test_sknp : -- T93, T94
    (ran (.sknp 0x1#4) (regs 0x05#8 0x00#8 0x00#8)).pc = 0x204#16 ∧
      (ran (.sknp 0x1#4) (press [5] (regs 0x05#8 0x00#8 0x00#8))).pc = 0x202#16 := by decide

theorem test_ldVxK : -- T95
    (ran (.ldVxK 0x2#4) (press [3, 7] State.reset)).getV 0x2#4 = 0x03#8 ∧
      (ran (.ldVxK 0x2#4) (press [3, 7] State.reset)).pc = 0x202#16 := by decide

theorem test_ldVxK_waits : -- T96
    (ran (.ldVxK 0x2#4) State.reset).pc = 0x200#16 ∧ (ran (.ldVxK 0x2#4) State.reset).outcome = some .waiting ∧
      (ran (.ldVxK 0x2#4) State.reset).status = .waitingForKey := by decide

theorem test_ldVxDt : -- T99, T100, T101
    (ran (.ldVxDt 0x1#4) (delay 0x0A#8 0 (50 / 1000))).getV 0x1#4 = 0x07#8 ∧
      (ran (.ldVxDt 0x1#4) (delay 0x0A#8 0 (166 / 10000))).getV 0x1#4 = 0x0A#8 ∧
      (ran (.ldVxDt 0x1#4) (delay 0x0A#8 0 (167 / 10000))).getV 0x1#4 = 0x09#8 := by decide +kernel

theorem test_ldVxDt_end : -- T102, T103
    (ran (.ldVxDt 0x1#4) (delay 0xFF#8 0 (424 / 100))).getV 0x1#4 = 0x01#8 ∧
      (ran (.ldVxDt 0x1#4) (delay 0xFF#8 0 (425 / 100))).getV 0x1#4 = 0x00#8 := by decide +kernel

theorem test_ldDtVx : -- T104
    (ran (.ldDtVx 0x0#4) { data 0x3C#8 0x0000#16 with now := 2 }).dtSet = 0x3C#8 ∧
      (ran (.ldDtVx 0x0#4) { data 0x3C#8 0x0000#16 with now := 2 }).dtT0 = 2 := by decide +kernel

theorem test_ldStVx : -- T106
    (ran (.ldStVx 0x1#4) { regs 0x1E#8 0x00#8 0x00#8 with now := 5 }).stSet = 0x1E#8 ∧
      (ran (.ldStVx 0x1#4) { regs 0x1E#8 0x00#8 0x00#8 with now := 5 }).stT0 = 5 := by decide +kernel

theorem test_audio_level : -- T106
    ({ State.reset with stSet := 0x1E#8, stT0 := 5, now := 549 / 100 } : State).evalAudio.audioEdge = some .start ∧
      ({ State.reset with stSet := 0x1E#8, stT0 := 5, now := 550 / 100, audioOn := true } : State).evalAudio.audioEdge =
        some .stop := by decide +kernel

/-! ### The two rows that are no instruction -/

theorem test_sys : -- T8
    (ran (.sys 0x123#12) State.reset).pc = 0x200#16 ∧ (ran (.sys 0x123#12) State.reset).outcome = some .ignored := by decide

theorem test_sentinel : -- T1
    (ran .sentinel State.reset).pc = 0x200#16 ∧ (ran .sentinel State.reset).outcome = some .noInstruction := by decide

/-! ### Driver -/

theorem test_init : -- T110
    (regs 0x01#8 0x02#8 0x03#8).init.v = State.reset.v ∧ readByte (corner.init.mem) 0x100 = 0xF0#8 ∧
      readByte (corner.init.mem) 0x14F = 0x80#8 ∧ readByte (corner.init.mem) 0x150 = 0x00#8 ∧
      readByte (corner.init.mem) 0x300 = 0x00#8 := by decide

theorem test_load : -- T113, T115
    (State.reset.load (some [0x00#8, 0xE0#8])).mem = [(0x201, 0xE0#8)] ∧
      ({ State.reset with mem := [(0x100, 0x11#8), (0x240, 0x77#8)] } : State).load (some [0x12#8, 0x00#8]) =
        { State.reset with mem := [(0x100, 0x11#8), (0x200, 0x12#8)], loadReport := some .success } :=
  ⟨by decide, rfl⟩

theorem test_budget : -- T117, T118, T119
    ({ State.reset with clockHz := 500, lastInstrTick := 1, now := 10105 / 10000 } : State).gatedBudget = 5 ∧
      ({ State.reset with clockHz := 1, lastInstrTick := 1, now := 15 / 10 } : State).gatedBudget = 0 ∧
      ({ State.reset with clockHz := 700, lastInstrTick := 1, now := 101 / 100, singleStepEn := true, singleStepReq := true } :
        State).gatedBudget = 1 := by decide +kernel

/-! ### Witnesses: the hypotheses of each obligation that has any, met together -/

theorem clock_reset : 1 ≤ State.reset.clockHz ∧ State.reset.clockHz ≤ clockHzMax := by
  have : 1 ≤ clockHzMax := Nat.le_max_left _ _
  simp only [State.reset]
  omega

theorem test_witness_roundtrip :
    Instr.wellFormed (.sys 0xFFF#12) = true ∧ Instr.wellFormed (.sys 0x001#12) = true ∧ Instr.wellFormed .sentinel = true ∧
      decodeWord 0xFFFF#16 ≠ .ok .sentinel ∧ decodeWord 0x0FFF#16 = .ok (.sys 0xFFF#12) := by decide

theorem test_witness_recognized :
    (0x9AB0#16 &&& 0xF00F#16 = 0x9000#16) ∧ (0x9000#16, 0xF00F#16) ∈ opcodeRows ∧
      decodeWord 0x9AB0#16 = .ok (.sneReg 0xA#4 0xB#4) ∧ rowOf (.sneReg 0xA#4 0xB#4) ∈ opcodeRows ∧
      rowOf (.sys 0x123#12) ∉ opcodeRows := by decide

theorem test_witness_rejected_boundaries :
    decodeWord 0x5120#16 ≠ .error .class5 ∧ decodeWord 0x512F#16 = .error .class5 ∧
      decodeWord 0x8127#16 ≠ .error .class8 ∧ decodeWord 0x812D#16 = .error .class8 ∧
      decodeWord 0x9121#16 = .error .class9 ∧ decodeWord 0xE100#16 = .error .classE ∧
      decodeWord 0xF000#16 = .error .classF := by decide

/-- StepRunsTheDecodedInstruction, and the last clause of RandomAndMask. -/
theorem test_witness_step :
    (word 0x8124).turn = .instr ∧ (word 0x8124).fetchDecode = .ok (.addReg 0x1#4 0x2#4) ∧
      (∃ t, exec (.addReg 0x1#4 0x2#4) (word 0x8124).popHost.beginInstr = .next t) ∧
      (word 0xC10F).turn = .instr ∧ (word 0xC10F).fetchDecode = .ok (.rnd 0x1#4 0x0F#8) :=
  ⟨by decide, by decide, ⟨_, rfl⟩, by decide, by decide⟩

/-- The first entry of the host's queue may also be `pass`. -/
theorem test_witness_step_pass : ({ word 0x8124 with hostQueue := [.pass, .shutdown] } : State).turn = .instr := by decide

theorem test_witness_no_effect :
    (word 0x5121).turn = .instr ∧ (word 0x5121).fetchDecode = .error .class5 ∧
      (word 0x0000).turn = .instr ∧ (word 0x0000).atSentinel :=
  ⟨by decide, by decide, by decide, by simp only [State.atSentinel]; decide⟩

theorem test_witness_outcomes :
    (ran (.ldVxK 0x2#4) State.reset).outcome = some .waiting ∧ (∀ k, State.reset.keyDown k = false) ∧
      (ran (.ldVxK 0x2#4) (press [15] State.reset)).outcome = some .executed ∧
      (press [15] State.reset).keyDown 0xF#4 = true := by decide

/-- ProgramCounterAdvance: a skip taken, a straight-line instruction, and an outcome other than Executed. -/
theorem test_witness_pc :
    exec (.seReg 0x0#4 0x0#4) State.reset = .next (ran (.seReg 0x0#4 0x0#4) State.reset) ∧
      Instr.isTransfer (.seReg 0x0#4 0x0#4) = false ∧
      (ran (.seReg 0x0#4 0x0#4) State.reset).outcome = some .executed ∧
      exec (.sys 0x123#12) State.reset = .next (ran (.sys 0x123#12) State.reset) ∧
      Instr.isTransfer (.sys 0x123#12) = false ∧ (ran (.sys 0x123#12) State.reset).outcome ≠ some .executed :=
  ⟨rfl, by decide, by decide, rfl, by decide, by decide⟩

theorem test_witness_memory :
    (List.replicate 4096 0x01#8).length ≤ 4096 ∧ ([0x01#8, 0x02#8] : List Byte).length ≤ 4096 ∧
      (∀ k < ([0x01#8, 0x02#8] : List Byte).length, 0x001 ≠ ((0x0FFF#16).toNat + k) % 4096) ∧
      readByte (writeBytes [] 0x0FFF#16 [0x01#8, 0x02#8]) 0x000 = 0x02#8 :=
  ⟨le_of_eq List.length_replicate, by decide, by decide, by decide⟩

theorem test_witness_canonical :
    Memory.wf [(0x000, 0x05#8), (0xFFF, 0x06#8)] ∧ (∀ a, readByte [(0x000, 0x05#8)] a = readByte [(0x000, 0x05#8)] a) ∧
      ¬ Memory.wf [(0xFFF, 0x06#8), (0x000, 0x05#8)] ∧ ¬ Memory.wf [(0x100, 0xF0#8)] ∧ ¬ Memory.wf [(0x1000, 0x05#8)] :=
  ⟨by decide, fun _ => rfl, by decide, by decide, by decide⟩

/-- StoreIsSeenByTheNextFetch, each clause: the first and the last pair of registers of LD [I], VF, the address masked, and the two
places of LD B. -/
theorem test_witness_store_fetch :
    (0x0#4).toNat < (0x1#4).toNat ∧ (0x202 + (0x0#4).toNat) % 4096 = (0x200 + 2) % 4096 ∧
      (data 0x6A#8 0x0202#16).i.toNat = 0x202 ∧ (data 0x6A#8 0x0202#16).pc.toNat = 0x200 ∧
      (0xE#4).toNat < (0xF#4).toNat ∧
      ((data 0x6A#8 0xF1F4#16).i.toNat + (0xE#4).toNat) % 4096 = ((data 0x6A#8 0xF1F4#16).pc.toNat + 2) % 4096 ∧
      (data 0xEA#8 0x1202#16).i.toNat % 4096 = ((data 0xEA#8 0x1202#16).pc.toNat + 2) % 4096 ∧
      ((data 0xEA#8 0x0201#16).i.toNat + 1) % 4096 = ((data 0xEA#8 0x0201#16).pc.toNat + 2) % 4096 := by decide

theorem test_store_then_fetch : -- P5, and S6's digits fetched as a word
    (ran (.storeRegs 0x1#4) ((data 0x6A#8 0x0202#16).setV 0x1#4 0x55#8)).fetchWord = 0x6A55#16 ∧
      (ran (.ldB 0x0#4) (data 0xEA#8 0x0201#16)).fetchWord = 0x0304#16 := by decide

/-- The invariant of a state that is about to step: the reset state, made ready, with a program word and a timer running. -/
theorem test_witness_invariant :
    ({ word 0x6105 with dtSet := 0x3C#8, dtT0 := -1 } : State).Inv ∧
      ∃ t, step { word 0x6105 with dtSet := 0x3C#8, dtT0 := -1 } = .next t := by
  refine ⟨⟨?_, clock_reset.1, clock_reset.2, le_refl 0, .inr ?_, .inl rfl, le_refl 0, fun h => nomatch h⟩, ?_⟩
  · exact (by decide : Memory.wf (word 0x6105).mem)
  · exact (by norm_num : (-1 : Rat) ≤ 0)
  · exact ⟨_, rfl⟩

/-- SentinelHaltsTheProgram and StuttersNeverMakeProgress: each disjunct, and `core.run` from Running. -/
theorem test_witness_halts :
    Undisturbed (word 0x0000) ∧ (word 0x0000).atSentinel ∧ (word 0x0000).runState = .running ∧
      Undisturbed (word 0x5121) ∧ (word 0x5121).atStutter ∧ (word 0x0123).atStutter ∧ (word 0x00EE).atStutter :=
  ⟨⟨rfl, rfl⟩, by simp only [State.atSentinel]; decide, rfl, ⟨rfl, rfl⟩, .inl ⟨.class5, by decide⟩,
    .inr (.inl ⟨0x123#12, by decide⟩), .inr (.inr ⟨by decide, rfl⟩)⟩

theorem test_witness_call :
    exec (.call 0x300#12) State.reset = .next (ran (.call 0x300#12) State.reset) ∧ State.reset.sp ≠ 0xFF#8 ∧
      exec (.call 0x300#12) (calls 0x200#16 0xFF#8 0 0#16) = .next (ran (.call 0x300#12) (calls 0x200#16 0xFF#8 0 0#16)) ∧
      (calls 0x200#16 0xFF#8 0 0#16).sp = 0xFF#8 ∧ (calls 0x200#16 0xFE#8 0 0#16).sp ≠ 0xFF#8 :=
  ⟨rfl, by decide, rfl, rfl, by decide⟩

/-- RetPopsOrChangesNothing at `SP` = 0, 1 and 255. -/
theorem test_witness_ret :
    (calls 0x300#16 0xFF#8 15 0x0ABC#16).sp ≠ 0x00#8 ∧ (ran .ret (calls 0x300#16 0xFF#8 15 0x0ABC#16)).pc = 0x0ABC#16 ∧
      (calls 0x300#16 0x01#8 1 0x0ABC#16).sp ≠ 0x00#8 ∧ State.reset.sp = 0x00#8 := by decide

theorem test_witness_shift :
    (0x40#8 = if ({ regs 0x81#8 0x40#8 0x00#8 with shiftUsesVy := true } : State).shiftUsesVy = true then
      (regs 0x81#8 0x40#8 0x00#8).getV 0x2#4 else (regs 0x81#8 0x40#8 0x00#8).getV 0x1#4) ∧
    (0x81#8 = if ({ regs 0x81#8 0x40#8 0x00#8 with shiftUsesVy := false } : State).shiftUsesVy = true then
      (regs 0x81#8 0x40#8 0x00#8).getV 0x2#4 else (regs 0x81#8 0x40#8 0x00#8).getV 0x1#4) := by decide

theorem test_witness_store_load :
    exec (.storeRegs 0xF#4) State.reset = .next (ran (.storeRegs 0xF#4) State.reset) ∧
      ((ran (.storeRegs 0xF#4) State.reset).setV 0x3#4 0x77#8).mem = (ran (.storeRegs 0xF#4) State.reset).mem ∧
      ((ran (.storeRegs 0xF#4) State.reset).setV 0x3#4 0x77#8).i = (ran (.storeRegs 0xF#4) State.reset).i ∧
      (0xF#4).toNat ≤ (0xF#4).toNat :=
  ⟨rfl, rfl, rfl, le_rfl⟩

theorem test_witness_draw :
    (0x0#4 : Reg) ≠ 0xF#4 ∧ (0x1#4 : Reg) ≠ 0xF#4 ∧
      exec (.drw 0x0#4 0x1#4 0x1#4) corner = .next (ran (.drw 0x0#4 0x1#4 0x1#4) corner) ∧
      exec (.drw 0x0#4 0x1#4 0x1#4) (ran (.drw 0x0#4 0x1#4 0x1#4) corner) =
        .next (ran (.drw 0x0#4 0x1#4 0x1#4) (ran (.drw 0x0#4 0x1#4 0x1#4) corner)) :=
  ⟨by decide, by decide, rfl, rfl⟩

/-- Pixel (0, 31) of T60 is covered, pixel (2, 31) is not (the sprite byte is F0), and with `n` = 0 none is. -/
theorem test_witness_covers :
    corner.spriteCovers 0x0#4 0x1#4 0x1#4 0 31 ∧ ¬ corner.spriteCovers 0x0#4 0x1#4 0x1#4 2 31 ∧
      ¬ corner.spriteCovers 0x0#4 0x1#4 0x0#4 0 31 := by
  refine ⟨⟨0, 2, by decide, by decide, by decide, by decide, by decide⟩, ?_, fun ⟨r, _, hr, _⟩ => absurd hr (Nat.not_lt_zero r)⟩
  rintro ⟨r, c, hr, hc, hb, hx, -⟩
  have hr0 : r = 0 := Nat.lt_one_iff.mp hr
  subst hr0
  have h4 : c = 4 := by
    have hx : 2 = (62 + c) % 64 := hx
    omega
  subst h4
  revert hb
  decide

theorem test_witness_keys :
    (0xA#4).toNat = ((regs 0x1A#8 0x00#8 0x00#8).getV 0x1#4).toNat % 16 ∧
      (press [3, 7] State.reset).keyDown 0x3#4 = true ∧
      (∀ j : Reg, j.toNat < (0x3#4).toNat → (press [3, 7] State.reset).keyDown j = false) ∧
      (∀ k, State.reset.keyDown k = false) := by decide

theorem test_witness_delay :
    (delay 0x0A#8 0 (50 / 1000)).dtT0 ≤ (delay 0x0A#8 0 (50 / 1000)).now ∧ (delay 0x00#8 5 0).dtSet = 0x00#8 := by
  decide +kernel

theorem test_witness_timers : -- the two sides of the first boundary, and the instant of the last
    (0 : Instant) ≤ 166 / 10000 ∧ (166 / 10000 : Instant) ≤ 167 / 10000 ∧ (166 / 10000 : Instant) - 0 < 1 / 60 ∧
      ¬ ((167 / 10000 : Instant) - 0 < 1 / 60) ∧ ((0x0A#8).toNat : Rat) / 60 ≤ (1667 / 10000 : Instant) - 0 ∧
      ¬ (((0x0A#8).toNat : Rat) / 60 ≤ (1666 / 10000 : Instant) - 0) := by decide +kernel

theorem test_witness_counter :
    ((3 : Nat) : Rat) / 60 ≤ (50 / 1000 : Instant) - 0 ∧ (50 / 1000 : Instant) - 0 < (((3 : Nat) : Rat) + 1) / 60 ∧
      ((300 : Nat) : Rat) / 60 ≤ (5 : Instant) - 0 ∧ (5 : Instant) - 0 < (((300 : Nat) : Rat) + 1) / 60 := by
  decide +kernel

/-- OnlySettingWritesTheAnchors: an instruction that sets no timer, a tick, a step of an instruction and a move of the host that
write no anchor, a tick with a reset pending. -/
theorem test_witness_anchors :
    exec (.ldVxDt 0x1#4) State.reset = .next (ran (.ldVxDt 0x1#4) State.reset) ∧
      step ticking = .next (after (step ticking)) ∧ ticking.turn ≠ .instr ∧ ticking.resetPending = false ∧
      (word 0xF107).turn ≠ .tick ∧ (word 0xF107).fetchDecode = .ok (.ldVxDt 0x1#4) ∧
      ({ ticking with hostQueue := [.requestReset] } : State).turn = .host .requestReset ∧
      ({ ticking with resetPending := true } : State).turn = .tick ∧ ticking.shutdown = false ∧
      ∃ t, step { ticking with resetPending := true } = .next t :=
  ⟨rfl, rfl, by decide, rfl, by decide, by decide, by decide, by decide, rfl, ⟨_, rfl⟩⟩

/-- The frames and the noninterference statements, on an instruction that writes much and on one that writes little. -/
theorem test_witness_frames :
    exec (.loadRegs 0x2#4) State.reset = .next (ran (.loadRegs 0x2#4) State.reset) ∧
      ¬ Instr.writesReg (.loadRegs 0x2#4) 0x3#4 ∧ Instr.writesReg (.loadRegs 0x2#4) 0x2#4 ∧
      ¬ Instr.writesReg (.addReg 0x1#4 0x2#4) 0x2#4 ∧ Instr.writesReg (.addReg 0x1#4 0x2#4) 0xF#4 ∧
      Instr.storeCount (.storeRegs 0xF#4) = 16 ∧ Instr.storeCount (.loadRegs 0xF#4) = 0 ∧
      (∀ k < Instr.storeCount (.ldB 0x0#4), 0x301 ≠ maskAddr ((data 0x80#8 0x0FFE#16).dataAddr k)) :=
  ⟨rfl, by unfold Instr.writesReg; decide, by unfold Instr.writesReg; decide, by unfold Instr.writesReg; decide,
    by unfold Instr.writesReg; decide, rfl, rfl, by decide⟩

theorem test_witness_samples :
    exec (.rnd 0x1#4 0x0F#8) State.reset = .next (ran (.rnd 0x1#4 0x0F#8) State.reset) ∧
      (∀ x y, Instr.rnd 0x1#4 0x0F#8 ≠ .shr x y) ∧ (∀ x y, Instr.rnd 0x1#4 0x0F#8 ≠ .shl x y) ∧
      (∀ x, Instr.rnd 0x1#4 0x0F#8 ≠ .ldVxDt x) ∧ (∀ x kk, Instr.skp 0x1#4 ≠ .rnd x kk) ∧
      (∀ x, Instr.rnd 0x1#4 0x0F#8 ≠ .skp x) :=
  ⟨rfl, fun _ _ => nofun, fun _ _ => nofun, fun _ => nofun, fun _ _ => nofun, fun _ => nofun⟩

/-- TickConsumesAReset and TickEvaluatesAudioAndBudget: with a request, without, under single-step with and without a pulse. -/
theorem test_witness_ticks :
    ({ ticking with resetPending := true } : State).turn = .tick ∧ ticking.turn = .tick ∧ ticking.shutdown = false ∧
      ticking.singleStepEn = false ∧
      ({ ticking with singleStepEn := true, singleStepReq := true } : State).turn = .tick ∧
      ({ word 0x6105 with resetPending := true } : State).turn = .instr ∧
      ∃ t, step { ticking with singleStepEn := true, singleStepReq := true } = .next t :=
  ⟨by decide, by decide, rfl, rfl, by decide, by decide, ⟨_, rfl⟩⟩

/-- HostMovesSetTheControls: each move at the head of the queue, the start action from Idle and from Running, and a step. -/
theorem test_witness_moves :
    ({ ticking with hostQueue := [.requestReset, .pass] } : State).hostQueue.head? = some .requestReset ∧
      ({ ticking with hostQueue := [.setSingleStep true] } : State).hostQueue.head? = some (.setSingleStep true) ∧
      ({ ticking with hostQueue := [.requestStep] } : State).hostQueue.head? = some .requestStep ∧
      ({ ticking with hostQueue := [.shutdown] } : State).hostQueue.head? = some .shutdown ∧
      ({ State.reset with hostQueue := [.start] } : State).hostQueue.head? = some .start ∧ State.reset.runState = .idle ∧
      ({ ticking with hostQueue := [.start] } : State).runState = .running ∧
      ∃ t, step { State.reset with hostQueue := [.start] } = .next t :=
  ⟨rfl, rfl, rfl, rfl, rfl, rfl, rfl, ⟨_, rfl⟩⟩

theorem test_moves : -- 70_reset_and_hazards.md R141, R138; T111: the flag is set, and the step is no tick
    (after (step { ticking with hostQueue := [.requestReset] })).resetPending = true ∧
      (after (step { State.reset with hostQueue := [.start] })).runState = .running ∧
      (after (step { ticking with hostQueue := [.shutdown] })).shutdown = true := by decide

theorem test_witness_idle :
    State.reset.hostQueue = [] ∧ State.reset.runState = .idle ∧
      ({ ticking with shutdown := true } : State).hostQueue = [] ∧ ({ ticking with shutdown := true } : State).budget = 0 := by
  decide

theorem test_witness_load :
    (List.replicate 3584 0x11#8).length ≤ 3584 ∧ 3584 < (List.replicate 3585 0x11#8).length ∧
      ([] : List Byte).length ≤ 3584 ∧ State.reset.load none = { State.reset with loadReport := some .failure } :=
  ⟨le_of_eq List.length_replicate, lt_of_lt_of_eq (Nat.lt_succ_self 3584) List.length_replicate.symm, by decide, rfl⟩

theorem test_witness_clock : -- T121
    clampClock 0 = 1 ∧ clampClock 1 = 1 ∧ clampClock (clockHzMax + 1) = clockHzMax ∧ clampClock clockHzMax = clockHzMax := by
  have : 1 ≤ clockHzMax := Nat.le_max_left _ _
  unfold clampClock
  omega

theorem test_witness_copy :
    ({ State.reset with hostQueue := [.copyDisplay, .start] } : State).hostQueue.head? = some .copyDisplay := rfl

end Sys2Proof.Tests
end

section
/-! The word 0x0000 is the only one that decodes to the sentinel, and the sentinel's step changes nothing but the step's
outputs (spec/30_encoding.md R50, spec/40_fetch_decode_execute.md R61). -/

namespace Sys2Proof

theorem decode0_eq_sentinel_iff (nnn : Addr12) : decode0 nnn = .sentinel ↔ nnn = 0x000#12 := by
  unfold decode0
  split
  case h_1 => exact ⟨fun _ => rfl, fun _ => rfl⟩
  case h_2 => exact ⟨nofun, nofun⟩
  case h_3 => exact ⟨nofun, nofun⟩
  case h_4 hne _ _ => exact ⟨nofun, fun h => absurd h hne⟩

theorem decode8_ne_sentinel (x y : Reg) (n : Nibble) : decode8 x y n ≠ .ok .sentinel := by
  unfold decode8
  split <;> nofun

theorem decodeE_ne_sentinel (x : Reg) (kk : Byte) : decodeE x kk ≠ .ok .sentinel := by
  unfold decodeE
  split <;> nofun

theorem decodeF_ne_sentinel (x : Reg) (kk : Byte) : decodeF x kk ≠ .ok .sentinel := by
  unfold decodeF
  split <;> nofun

theorem decodeWord_of_fieldOp_zero {w : Word} (h : fieldOp w = 0x0#4) : decodeWord w = .ok (decode0 (fieldNnn w)) := by
  simp only [decodeWord, h]

/-- Only family 0 has the sentinel: families 8, E and F select among their own rows, every other one has one fixed row. -/
theorem fieldOp_of_decodeWord_sentinel {w : Word} (h : decodeWord w = .ok .sentinel) : fieldOp w = 0x0#4 := by
  unfold decodeWord at h
  split at h
  case h_1 hop => exact hop
  case h_6 => split at h <;> nomatch h
  case h_10 => split at h <;> nomatch h
  case h_9 => exact absurd h (decode8_ne_sentinel _ _ _)
  case h_15 => exact absurd h (decodeE_ne_sentinel _ _)
  case h_16 => exact absurd h (decodeF_ne_sentinel _ _)
  all_goals nomatch h

/-- R50's test on the whole word: a zero top nibble alone does not make the sentinel, the other twelve bits must be zero too. -/
theorem decodeWord_eq_sentinel_iff (w : Word) : decodeWord w = .ok .sentinel ↔ w = 0x0000#16 := by
  constructor
  · intro h
    have hop : fieldOp w = 0x0#4 := fieldOp_of_decodeWord_sentinel h
    rw [decodeWord_of_fieldOp_zero hop, Except.ok.injEq, decode0_eq_sentinel_iff] at h
    calc w = wordNnn (fieldOp w) (fieldNnn w) := (wordNnn_fields w).symm
      _ = wordNnn 0x0#4 0x000#12 := by rw [hop, h]
      _ = 0x0000#16 := rfl
  · rintro rfl
    rfl

end Sys2Proof

namespace Sys2Proof.Machine

theorem exec_sentinel (s : State) : exec .sentinel s = .next (s.ended .noInstruction) := rfl

/-! Ending an instruction writes the outcome and the status, and nothing else. -/

theorem ended_sameTimers (s : State) (o : StepOutcome) : SameTimers s (s.ended o) := by
  constructor <;> simp

theorem ended_sameProgramState (s : State) (o : StepOutcome) : SameProgramState s (s.ended o) := by
  constructor
  case timers => exact ended_sameTimers s o
  all_goals simp

theorem ended_sameSamples (s : State) (o : StepOutcome) : SameSamples s (s.ended o) := by
  constructor <;> simp

theorem ended_sameControls (s : State) (o : StepOutcome) : SameControls s (s.ended o) := by
  constructor <;> simp

end Sys2Proof.Machine

open Sys2Proof Sys2Proof.Machine

/-- Settles O5: a word decoding to the sentinel lies in family 0 and has all its other bits zero; the step on the sentinel
is the end of an instruction with outcome NoInstruction. -/
theorem onlyTheZeroWordIsTheSentinel : Obligations.OnlyTheZeroWordIsTheSentinel := by
  unfold Obligations.OnlyTheZeroWordIsTheSentinel
  refine ⟨decodeWord_eq_sentinel_iff, fun s => ⟨s.ended .noInstruction, exec_sentinel s, ?_⟩⟩
  exact ⟨ended_sameProgramState s _, ended_sameSamples s _, ended_sameControls s _, rfl, rfl⟩
end

section
/-! What leaves the timer anchors alone (spec/60_exceptions.md R127): the updates of State, the ends of an instruction, every
instruction but the two that set a timer, the moves of the host, and a tick that consumes no reset. -/

namespace Sys2Proof.Machine

theorem SameTimers.refl (s : State) : SameTimers s s := ⟨rfl, rfl, rfl, rfl⟩

theorem SameTimers.trans {s t u : State} (hst : SameTimers s t) (htu : SameTimers t u) : SameTimers s u :=
  ⟨htu.dtSet.trans hst.dtSet, htu.dtT0.trans hst.dtT0, htu.stSet.trans hst.stSet, htu.stT0.trans hst.stT0⟩

/-! ### Updates of State -/

theorem setV_sameTimers (s : State) (x : Reg) (b : Byte) : SameTimers s (s.setV x b) := by
  constructor <;> simp

theorem setFlagThenV_sameTimers (s : State) (x : Reg) (f b : Byte) : SameTimers s (s.setFlagThenV x f b) := by
  constructor <;> simp

theorem setI_sameTimers (s : State) (a : Word) : SameTimers s (s.setI a) := by
  constructor <;> simp

theorem setPc_sameTimers (s : State) (a : Word) : SameTimers s (s.setPc a) := by
  constructor <;> simp

theorem push_sameTimers (s : State) (a : Word) : SameTimers s (s.push a) := by
  constructor <;> simp

theorem pop_sameTimers (s : State) : SameTimers s s.pop := by
  constructor <;> simp

theorem setDisp_sameTimers (s : State) (d : Display) : SameTimers s (s.setDisp d) := by
  constructor <;> simp

theorem memWrite_sameTimers (s : State) (a : Word) (bs : List Byte) : SameTimers s (s.memWrite a bs) := by
  constructor <;> simp

theorem loadFirst_sameTimers (s : State) (count : Nat) : SameTimers s (s.loadFirst count) := by
  induction count with
  | zero => exact .refl s
  | succ k ih => exact ih.trans (setV_sameTimers _ _ _)

/-! ### Ends of an instruction -/

variable {s t u : State}

theorem finish_sameTimers {o : StepOutcome} (hu : SameTimers s u) (h : finish o u = .next t) : SameTimers s t := by
  obtain rfl : u.ended o = t := Host.Outcome.next.inj h
  exact hu.trans (ended_sameTimers u o)

theorem straight_sameTimers (hu : SameTimers s u) (h : straight u = .next t) : SameTimers s t :=
  finish_sameTimers (hu.trans (setPc_sameTimers u _)) h

theorem skipIf_sameTimers {c : Bool} (h : skipIf c s = .next t) : SameTimers s t :=
  finish_sameTimers (setPc_sameTimers s _) h

theorem execRet_sameTimers (h : execRet s = .next t) : SameTimers s t := by
  refine finish_sameTimers ?_ h
  split
  · exact .refl s
  · exact pop_sameTimers s

theorem afterWaitKey_sameTimers (s : State) (x : Reg) : SameTimers s (s.afterWaitKey x) := by
  unfold State.afterWaitKey
  split
  · exact ((setV_sameTimers s _ _).trans (setPc_sameTimers _ _)).trans (ended_sameTimers _ _)
  · exact ended_sameTimers s _

/-- R127 for `exec`: each instruction but `LD DT, Vx` and `LD ST, Vx` is made of updates that leave the anchors alone. -/
theorem exec_sameTimers {i : Instr} (h : exec i s = .next t) (hdt : ∀ x, i ≠ .ldDtVx x) (hst : ∀ x, i ≠ .ldStVx x) :
    SameTimers s t := by
  cases i
  case ldDtVx x => exact absurd rfl (hdt x)
  case ldStVx x => exact absurd rfl (hst x)
  case ldImm | addImm | ldReg | orReg | andReg | xorReg | rnd | ldVxDt =>
    exact straight_sameTimers (setV_sameTimers s _ _) h
  case addReg | sub | subn | shr | shl => exact straight_sameTimers (setFlagThenV_sameTimers s _ _ _) h
  case ldI | addI | ldF => exact straight_sameTimers (setI_sameTimers s _) h
  case ldB | storeRegs => exact straight_sameTimers (memWrite_sameTimers s _ _) h
  case loadRegs => exact straight_sameTimers (loadFirst_sameTimers s _) h
  case cls => exact straight_sameTimers (setDisp_sameTimers s _) h
  case drw => exact straight_sameTimers ((setDisp_sameTimers s _).trans (setV_sameTimers _ _ _)) h
  case seImm | sneImm | seReg | sneReg | skp | sknp => exact skipIf_sameTimers h
  case ret => exact execRet_sameTimers h
  case jp | jpV0 => exact finish_sameTimers (setPc_sameTimers s _) h
  case call => exact finish_sameTimers ((push_sameTimers s _).trans (setPc_sameTimers _ _)) h
  case ldVxK x =>
    obtain rfl : s.afterWaitKey x = t := Host.Outcome.next.inj h
    exact afterWaitKey_sameTimers s x
  case sys | sentinel => exact finish_sameTimers (.refl s) h

/-! ### One instruction step -/

theorem beginInstr_sameTimers (s : State) : SameTimers s s.beginInstr := by
  constructor <;> simp

theorem settle_sameTimers (s : State) (j : Option Instr) : SameTimers s (s.settle j) := by
  constructor <;> simp

theorem popHost_sameTimers (s : State) : SameTimers s s.popHost := by
  constructor <;> simp

/-- The instruction fetched depends on memory and `PC` alone. -/
theorem fetchDecode_congr (hm : t.mem = s.mem) (hp : t.pc = s.pc) : t.fetchDecode = s.fetchDecode := by
  rw [fetchDecode_eq, fetchDecode_eq, fetchWord_congr hm hp]

theorem fetchDecode_popHost_beginInstr (s : State) : s.popHost.beginInstr.fetchDecode = s.fetchDecode :=
  fetchDecode_congr (by simp) (by simp)

theorem endInstr_eq_next {j : Option Instr} {r : Result} (h : endInstr j r = .next t) :
    ∃ u, r = .next u ∧ t = u.settle j := by
  cases r with
  | next u => exact ⟨u, rfl, (Host.Outcome.next.inj h).symm⟩
  | fault => nomatch h
  | refused => nomatch h

theorem endInstr_sameTimers {j : Option Instr} {r : Result} (hr : ∀ u, r = .next u → SameTimers s u)
    (h : endInstr j r = .next t) : SameTimers s t := by
  obtain ⟨u, hu, rfl⟩ := endInstr_eq_next h
  exact (hr u hu).trans (settle_sameTimers u j)

theorem instrStep_sameTimers (h : instrStep s = .next t)
    (hset : ∀ x, s.beginInstr.fetchDecode ≠ .ok (.ldDtVx x) ∧ s.beginInstr.fetchDecode ≠ .ok (.ldStVx x)) :
    SameTimers s t := by
  refine (beginInstr_sameTimers s).trans ?_
  unfold instrStep at h
  split at h
  case h_1 i hi =>
    refine endInstr_sameTimers (fun u hu => exec_sameTimers hu ?_ ?_) h
    · rintro x rfl
      exact (hset x).1 hi
    · rintro x rfl
      exact (hset x).2 hi
  case h_2 => exact endInstr_sameTimers (fun u hu => finish_sameTimers (.refl _) hu) h

/-! ### The host and the tick -/

theorem load_sameTimers (s : State) (stream : Option (List Byte)) : SameTimers s (s.load stream) := by
  unfold State.load
  split
  · constructor <;> rfl
  · split <;> constructor <;> rfl

theorem start_sameTimers (s : State) : SameTimers s s.start := by
  cases hr : s.runState with
  | idle =>
    rw [start_of_idle hr]
    constructor <;> simp
  | running =>
    rw [start_of_running hr]
    exact .refl s

theorem hostMove_sameTimers (s : State) (m : HostMove) : SameTimers s (s.hostMove m) := by
  cases m
  case load stream => exact load_sameTimers s stream
  case start => exact start_sameTimers s
  all_goals constructor <;> rfl

theorem sleepTick_sameTimers (s : State) : SameTimers s s.sleepTick := by
  constructor <;> simp

theorem evalAudio_sameTimers (s : State) : SameTimers s s.evalAudio := by
  constructor <;> simp

theorem grantBudget_sameTimers (s : State) : SameTimers s s.grantBudget := by
  constructor <;> simp

/-- A tick writes the anchors only through the initialisation of a pending reset. -/
theorem tick_sameTimers (h : ¬ (s.shutdown = false ∧ s.resetPending = true)) : SameTimers s s.tick := by
  cases hd : s.shutdown with
  | true =>
    rw [tick_of_shutdown hd]
    exact .refl s
  | false =>
    have hr : s.sleepTick.resetPending = false := by simpa [hd] using h
    rw [tick_of_running hd, consumeReset_none hr]
    exact ((sleepTick_sameTimers s).trans (evalAudio_sameTimers _)).trans (grantBudget_sameTimers _)

/-- The initialisation of a pending reset sets both timers to 0, and the rest of its tick leaves them there. -/
theorem tick_of_reset_clears_timers (hd : s.shutdown = false) (hr : s.resetPending = true) :
    s.tick.dtSet = 0x00#8 ∧ s.tick.stSet = 0x00#8 := by
  have hr' : s.sleepTick.resetPending = true := hr
  rw [tick_of_running hd, consumeReset_pending hr']
  constructor <;> simp

/-- R127 for the machine's step, by whose turn it is. -/
theorem step_sameTimers (h : step s = .next t)
    (hreset : ¬ (s.turn = .tick ∧ s.shutdown = false ∧ s.resetPending = true))
    (hset : ¬ (s.turn = .instr ∧ ∃ x, s.fetchDecode = .ok (.ldDtVx x) ∨ s.fetchDecode = .ok (.ldStVx x))) :
    SameTimers s t := by
  refine (popHost_sameTimers s).trans ?_
  cases hturn : s.turn with
  | host m =>
    rw [step_of_host hturn] at h
    cases h
    exact hostMove_sameTimers s.popHost m
  | idle =>
    rw [step_of_idle hturn] at h
    cases h
    exact .refl s.popHost
  | tick =>
    rw [step_of_tick hturn] at h
    cases h
    exact tick_sameTimers fun hr => hreset ⟨hturn, by simpa using hr⟩
  | instr =>
    rw [step_of_instr hturn] at h
    refine instrStep_sameTimers h fun x => ?_
    rw [fetchDecode_popHost_beginInstr]
    exact ⟨fun hx => hset ⟨hturn, x, .inl hx⟩, fun hx => hset ⟨hturn, x, .inr hx⟩⟩

/-! ### The two instructions that set a timer -/

theorem exec_ldDtVx (x : Reg) (s : State) :
    exec (.ldDtVx x) s = .next (((s.setDt (s.getV x)).setPc (s.pc + 2#16)).ended .executed) := rfl

theorem exec_ldStVx (x : Reg) (s : State) :
    exec (.ldStVx x) s = .next (((s.setSt (s.getV x)).setPc (s.pc + 2#16)).ended .executed) := rfl

end Sys2Proof.Machine

open Sys2Proof Sys2Proof.Machine

/-- Settles O44: the two setters by their result, every other instruction by the updates it is made of, every step by whose
turn it is; only a setter's instruction step and the tick of a reset reach an anchor. -/
theorem onlySettingWritesTheAnchors : Obligations.OnlySettingWritesTheAnchors := by
  unfold Obligations.OnlySettingWritesTheAnchors
  refine ⟨fun x s => ⟨_, exec_ldDtVx x s, by simp⟩, fun x s => ⟨_, exec_ldStVx x s, by simp⟩,
    fun _ _ _ h hdt hst => exec_sameTimers h hdt hst, fun _ _ h hreset hset => step_sameTimers h hreset hset, ?_⟩
  intro s t h hturn hd hr
  rw [step_of_tick hturn] at h
  cases h
  exact tick_of_reset_clears_timers (by simpa using hd) (by simpa using hr)
end

section
/-! The timer value function (spec/60_exceptions.md R126). -/

namespace Sys2Proof.Machine

/-- R126's formula: the natural subtraction is the `max`, and the natural floor is the integer one. -/
theorem timerValue_eq_max (set : Byte) {t0 t : Instant} (h : t0 ≤ t) :
    ((timerValue set t0 t).toNat : Int) = max 0 ((set.toNat : Int) - ⌊60 * (t - t0)⌋) := by
  rw [timerValue_toNat, ← floor_elapsed h]
  omega

/-- A timer set to 0 stays 0, at instants before its anchor too. -/
theorem timerValue_zero (t0 t : Instant) : timerValue 0x00#8 t0 t = 0x00#8 :=
  BitVec.eq_of_toNat_eq (by rw [timerValue_toNat]; exact Nat.zero_sub _)

end Sys2Proof.Machine

open Sys2Proof Sys2Proof.Machine

/-- Settles O45: the formula, the timer at 0, and `DT` and `ST` by their definition. -/
theorem timerValueFormula : Obligations.TimerValueFormula :=
  ⟨fun set _ _ h => timerValue_eq_max set h, timerValue_zero, fun _ => ⟨rfl, rfl⟩⟩
end

section
/-! The renderer's copy of the display (spec/60_exceptions.md R133). -/

open Sys2Proof Sys2Proof.Machine

/-- Settles O60: a display copy at the head of the queue takes the turn, and its move writes the copy alone. -/
theorem displayCopyOut : Obligations.DisplayCopyOut := by
  unfold Obligations.DisplayCopyOut
  intro s h
  have hturn : s.turn = .host .copyDisplay := turn_of_move h nofun
  rw [step_of_host hturn]
  rfl
end

section
/-! The decoder and the encoder undo each other, and the decoder agrees with the opcode map and with the table of unrecognized
words (spec/30_encoding.md R46 to R52). -/

namespace Sys2Proof

/-! ### The two bytes of a word -/

theorem decodeBytes_hi_lo (w : Word) : decodeBytes [hiByte w, loByte w] = decodeWord w := by
  rw [decodeBytes, hi_lo]

/-! ### Encode, then decode -/

/-- R52: of the words of family 0 the three others are no `SYS`. -/
theorem decode0_of_sys {nnn : Addr12} (h : (Instr.sys nnn).wellFormed = true) : decode0 nnn = .sys nnn := by
  simp only [Instr.wellFormed, Bool.and_eq_true, bne_iff_ne, ne_eq] at h
  obtain ⟨⟨h0, h1⟩, h2⟩ := h
  unfold decode0
  split
  case h_4 => rfl
  all_goals contradiction

theorem decodeWord_encode {i : Instr} (h : i.wellFormed = true) : decodeWord (encode i) = .ok i := by
  cases i
  case cls | ret | sentinel => rfl
  case sys nnn => simp [encode, decodeWord, fieldOp_wordNnn, fieldNnn_wordNnn, decode0_of_sys h]
  case jp | call | ldI | jpV0 => simp [encode, decodeWord, fieldOp_wordNnn, fieldNnn_wordNnn]
  case seImm | sneImm | ldImm | addImm | rnd =>
    simp [encode, decodeWord, fieldOp_wordXkk, fieldX_wordXkk, fieldKk_wordXkk]
  case seReg | sneReg | drw =>
    simp [encode, decodeWord, fieldOp_wordXyn, fieldX_wordXyn, fieldY_wordXyn, fieldN_wordXyn]
  case ldReg | orReg | andReg | xorReg | addReg | sub | shr | subn | shl =>
    simp [encode, decodeWord, decode8, fieldOp_wordXyn, fieldX_wordXyn, fieldY_wordXyn, fieldN_wordXyn]
  case skp | sknp => simp [encode, decodeWord, decodeE, fieldOp_wordXkk, fieldX_wordXkk, fieldKk_wordXkk]
  case ldVxDt | ldVxK | ldDtVx | ldStVx | addI | ldF | ldB | storeRegs | loadRegs =>
    simp [encode, decodeWord, decodeF, fieldOp_wordXkk, fieldX_wordXkk, fieldKk_wordXkk]

/-! ### Decode, then encode -/

/-- `i` is well formed and its word is `w`. -/
def Instr.ReadingOf (i : Instr) (w : Word) : Prop := i.wellFormed = true ∧ encode i = w

theorem readingOf_decode0 (nnn : Addr12) : (decode0 nnn).ReadingOf (wordNnn 0x0#4 nnn) := by
  unfold decode0
  split
  case h_1 | h_2 | h_3 => exact ⟨rfl, rfl⟩
  case h_4 h0 h1 h2 => exact ⟨by simpa [Instr.wellFormed] using ⟨⟨h0, h1⟩, h2⟩, rfl⟩

theorem readingOf_decode8 {x y : Reg} {n : Nibble} {i : Instr} (h : decode8 x y n = .ok i) :
    i.ReadingOf (wordXyn 0x8#4 x y n) := by
  unfold decode8 at h
  split at h <;> cases h <;> exact ⟨rfl, rfl⟩

theorem readingOf_decodeE {x : Reg} {kk : Byte} {i : Instr} (h : decodeE x kk = .ok i) :
    i.ReadingOf (wordXkk 0xE#4 x kk) := by
  unfold decodeE at h
  split at h <;> cases h <;> exact ⟨rfl, rfl⟩

theorem readingOf_decodeF {x : Reg} {kk : Byte} {i : Instr} (h : decodeF x kk = .ok i) :
    i.ReadingOf (wordXkk 0xF#4 x kk) := by
  unfold decodeF at h
  split at h <;> cases h <;> exact ⟨rfl, rfl⟩

/-- A word that decodes is put together again from the fields its family reads. -/
theorem readingOf_decodeWord {w : Word} {i : Instr} (h : decodeWord w = .ok i) : i.ReadingOf w := by
  unfold decodeWord at h
  split at h
  case h_1 hop =>
    cases h
    have := readingOf_decode0 (fieldNnn w)
    rwa [← hop, wordNnn_fields] at this
  case h_2 hop | h_3 hop | h_11 hop | h_12 hop =>
    cases h
    exact ⟨rfl, by rw [encode, ← hop, wordNnn_fields]⟩
  case h_4 hop | h_5 hop | h_7 hop | h_8 hop | h_13 hop =>
    cases h
    exact ⟨rfl, by rw [encode, ← hop, wordXkk_fields]⟩
  case h_6 hop | h_10 hop =>
    split at h
    · next hn =>
      cases h
      exact ⟨rfl, by rw [encode, ← hop, ← hn, wordXyn_fields]⟩
    · cases h
  case h_14 hop =>
    cases h
    exact ⟨rfl, by rw [encode, ← hop, wordXyn_fields]⟩
  case h_9 hop =>
    have := readingOf_decode8 h
    rwa [← hop, wordXyn_fields] at this
  case h_15 hop =>
    have := readingOf_decodeE h
    rwa [← hop, wordXkk_fields] at this
  case h_16 =>
    -- the last family is the one that no other top nibble names
    have hop : fieldOp w = 0xF#4 := by
      simp only [imp_false] at *
      bv_omega
    have := readingOf_decodeF h
    rwa [← hop, wordXkk_fields] at this

end Sys2Proof

open Sys2Proof

/-- Settles O1: each format's fields are read back from the composed word, and family 0 answers `SYS` where R52 says so. -/
theorem decodeOfEncodeIsTheInstruction : Obligations.DecodeOfEncodeIsTheInstruction := by
  unfold Obligations.DecodeOfEncodeIsTheInstruction
  intro i h
  exact ⟨decodeWord_encode h, by rw [encodeBytes, decodeBytes_hi_lo, decodeWord_encode h]⟩

/-- Settles O2: each family composes its word of exactly the fields it has read. -/
theorem encodeOfDecodeIsTheWord : Obligations.EncodeOfDecodeIsTheWord := by
  unfold Obligations.EncodeOfDecodeIsTheWord
  exact fun _ _ h => readingOf_decodeWord h
end

section
/-! Recognized and rejected words: the rows of the opcode map, the table of unrecognized words, and the words of the spec's
examples (spec/30_encoding.md R49 to R51). -/

namespace Sys2Proof

/-! ### Every instruction's word matches its row -/

/-- The family `MatchesRow` of Laws/PerInstr.lean, put together. -/
theorem encode_matches_row (i : Instr) : encode i &&& (rowOf i).2 = (rowOf i).1 :=
  match i with
  | .cls => Laws.MatchesRow.cls
  | .ret => Laws.MatchesRow.ret
  | .jp nnn => Laws.MatchesRow.jp nnn
  | .call nnn => Laws.MatchesRow.call nnn
  | .seImm x kk => Laws.MatchesRow.seImm x kk
  | .sneImm x kk => Laws.MatchesRow.sneImm x kk
  | .seReg x y => Laws.MatchesRow.seReg x y
  | .ldImm x kk => Laws.MatchesRow.ldImm x kk
  | .addImm x kk => Laws.MatchesRow.addImm x kk
  | .ldReg x y => Laws.MatchesRow.ldReg x y
  | .orReg x y => Laws.MatchesRow.orReg x y
  | .andReg x y => Laws.MatchesRow.andReg x y
  | .xorReg x y => Laws.MatchesRow.xorReg x y
  | .addReg x y => Laws.MatchesRow.addReg x y
  | .sub x y => Laws.MatchesRow.sub x y
  | .shr x y => Laws.MatchesRow.shr x y
  | .subn x y => Laws.MatchesRow.subn x y
  | .shl x y => Laws.MatchesRow.shl x y
  | .sneReg x y => Laws.MatchesRow.sneReg x y
  | .ldI nnn => Laws.MatchesRow.ldI nnn
  | .jpV0 nnn => Laws.MatchesRow.jpV0 nnn
  | .rnd x kk => Laws.MatchesRow.rnd x kk
  | .drw x y n => Laws.MatchesRow.drw x y n
  | .skp x => Laws.MatchesRow.skp x
  | .sknp x => Laws.MatchesRow.sknp x
  | .ldVxDt x => Laws.MatchesRow.ldVxDt x
  | .ldVxK x => Laws.MatchesRow.ldVxK x
  | .ldDtVx x => Laws.MatchesRow.ldDtVx x
  | .ldStVx x => Laws.MatchesRow.ldStVx x
  | .addI x => Laws.MatchesRow.addI x
  | .ldF x => Laws.MatchesRow.ldF x
  | .ldB x => Laws.MatchesRow.ldB x
  | .storeRegs x => Laws.MatchesRow.storeRegs x
  | .loadRegs x => Laws.MatchesRow.loadRegs x
  | .sys nnn => Laws.MatchesRow.sys nnn
  | .sentinel => Laws.MatchesRow.sentinel

theorem decoded_matches_row {w : Word} {i : Instr} (h : decodeWord w = .ok i) : w &&& (rowOf i).2 = (rowOf i).1 := by
  obtain ⟨-, hw⟩ := readingOf_decodeWord h
  rw [← hw, encode_matches_row]

/-! ### A word that matches a row decodes to that row -/

/-- The instructions of rows 1 to 34 with the operands of `w`, in the order of `opcodeRows`. -/
def rowReadings (w : Word) : List Instr :=
  [.cls, .ret, .jp (fieldNnn w), .call (fieldNnn w), .seImm (fieldX w) (fieldKk w), .sneImm (fieldX w) (fieldKk w),
    .seReg (fieldX w) (fieldY w), .ldImm (fieldX w) (fieldKk w), .addImm (fieldX w) (fieldKk w),
    .ldReg (fieldX w) (fieldY w), .orReg (fieldX w) (fieldY w), .andReg (fieldX w) (fieldY w),
    .xorReg (fieldX w) (fieldY w), .addReg (fieldX w) (fieldY w), .sub (fieldX w) (fieldY w), .shr (fieldX w) (fieldY w),
    .subn (fieldX w) (fieldY w), .shl (fieldX w) (fieldY w), .sneReg (fieldX w) (fieldY w), .ldI (fieldNnn w),
    .jpV0 (fieldNnn w), .rnd (fieldX w) (fieldKk w), .drw (fieldX w) (fieldY w) (fieldN w), .skp (fieldX w),
    .sknp (fieldX w), .ldVxDt (fieldX w), .ldVxK (fieldX w), .ldDtVx (fieldX w), .ldStVx (fieldX w), .addI (fieldX w),
    .ldF (fieldX w), .ldB (fieldX w), .storeRegs (fieldX w), .loadRegs (fieldX w)]

theorem map_rowOf_rowReadings (w : Word) : (rowReadings w).map rowOf = opcodeRows := rfl

/-! The mask of each format keeps its literal fields, so the word is composed of the row's literals and its own operands. -/

theorem fieldOp_opMask (w : Word) : fieldOp (w &&& 0xF000#16) = fieldOp w := by
  conv_lhs => rw [← wordNnn_fields w, wordNnn_mask, fieldOp_wordNnn]

theorem wordNnn_of_row {w m : Word} (h : w &&& 0xF000#16 = m) : wordNnn (fieldOp m) (fieldNnn w) = w := by
  rw [← h, fieldOp_opMask, wordNnn_fields]

theorem wordXkk_of_row {w m : Word} (h : w &&& 0xF000#16 = m) : wordXkk (fieldOp m) (fieldX w) (fieldKk w) = w := by
  rw [← h, fieldOp_opMask, wordXkk_fields]

theorem wordXyn_of_row {w m : Word} (h : w &&& 0xF000#16 = m) :
    wordXyn (fieldOp m) (fieldX w) (fieldY w) (fieldN w) = w := by
  rw [← h, fieldOp_opMask, wordXyn_fields]

theorem wordX_of_row {w m : Word} (h : w &&& 0xF0FF#16 = m) : wordXkk (fieldOp m) (fieldX w) (fieldKk m) = w := by
  rw [← wordXkk_fields w, wordX_mask] at h
  rw [← h, fieldOp_wordXkk, fieldKk_wordXkk, wordXkk_fields]

theorem wordXy_of_row {w m : Word} (h : w &&& 0xF00F#16 = m) :
    wordXyn (fieldOp m) (fieldX w) (fieldY w) (fieldN m) = w := by
  rw [← wordXyn_fields w, wordXy_mask] at h
  rw [← h, fieldOp_wordXyn, fieldN_wordXyn, wordXyn_fields]

theorem eq_of_wholeMask {w m : Word} (h : w &&& 0xFFFF#16 = m) : m = w := by
  rw [← h, show (0xFFFF#16) = BitVec.allOnes 16 from rfl, BitVec.and_allOnes]

theorem encode_rowReading {w : Word} {i : Instr} (hi : i ∈ rowReadings w) (h : w &&& (rowOf i).2 = (rowOf i).1) :
    encode i = w := by
  cases i
  case sys | sentinel => simp [rowReadings] at hi
  case cls | ret => exact eq_of_wholeMask h
  case jp nnn | call nnn | ldI nnn | jpV0 nnn =>
    obtain rfl : nnn = fieldNnn w := by simpa [rowReadings] using hi
    simpa [rowOf, encode, fieldOp] using wordNnn_of_row h
  case seImm x kk | sneImm x kk | ldImm x kk | addImm x kk | rnd x kk =>
    obtain ⟨rfl, rfl⟩ : x = fieldX w ∧ kk = fieldKk w := by simpa [rowReadings] using hi
    simpa [rowOf, encode, fieldOp] using wordXkk_of_row h
  case drw x y n =>
    obtain ⟨rfl, rfl, rfl⟩ : x = fieldX w ∧ y = fieldY w ∧ n = fieldN w := by simpa [rowReadings] using hi
    simpa [rowOf, encode, fieldOp] using wordXyn_of_row h
  case seReg x y | sneReg x y | ldReg x y | orReg x y | andReg x y | xorReg x y | addReg x y | sub x y | shr x y |
      subn x y | shl x y =>
    obtain ⟨rfl, rfl⟩ : x = fieldX w ∧ y = fieldY w := by simpa [rowReadings] using hi
    simpa [rowOf, encode, fieldOp, fieldN] using wordXy_of_row h
  case skp x | sknp x | ldVxDt x | ldVxK x | ldDtVx x | ldStVx x | addI x | ldF x | ldB x | storeRegs x | loadRegs x =>
    obtain rfl : x = fieldX w := by simpa [rowReadings] using hi
    simpa [rowOf, encode, fieldOp, fieldKk] using wordX_of_row h

theorem wellFormed_rowReading {w : Word} {i : Instr} (hi : i ∈ rowReadings w) : i.wellFormed = true := by
  cases i
  case sys => simp [rowReadings] at hi
  all_goals rfl

theorem decodeWord_of_row {w : Word} {r : Word × Word} (hr : r ∈ opcodeRows) (h : w &&& r.2 = r.1) :
    ∃ i, decodeWord w = .ok i ∧ rowOf i = r := by
  rw [← map_rowOf_rowReadings w] at hr
  obtain ⟨i, hi, rfl⟩ := List.mem_map.mp hr
  refine ⟨i, ?_, rfl⟩
  rw [← encode_rowReading hi h, decodeWord_encode (wellFormed_rowReading hi)]

/-! ### Rejected words -/

theorem decode8_error_iff (x y : Reg) (n : Nibble) (c : Reject) :
    decode8 x y n = .error c ↔ c = .class8 ∧ n ∈ [0x8#4, 0x9#4, 0xA#4, 0xB#4, 0xC#4, 0xD#4, 0xF#4] := by
  unfold decode8
  split
  case h_10 h0 h1 h2 h3 h4 h5 h6 h7 hE =>
    have hn : n ∈ [0x8#4, 0x9#4, 0xA#4, 0xB#4, 0xC#4, 0xD#4, 0xF#4] := by
      revert n
      decide
    simp [hn, eq_comm]
  all_goals simp

theorem decodeE_error_iff (x : Reg) (kk : Byte) (c : Reject) :
    decodeE x kk = .error c ↔ c = .classE ∧ kk ∉ [0x9E#8, 0xA1#8] := by
  unfold decodeE
  split
  case h_3 h1 h2 =>
    have hkk : kk ∉ [0x9E#8, 0xA1#8] := by simpa using ⟨h1, h2⟩
    simp [hkk, eq_comm]
  all_goals simp

theorem decodeF_error_iff (x : Reg) (kk : Byte) (c : Reject) :
    decodeF x kk = .error c ↔
      c = .classF ∧ kk ∉ [0x07#8, 0x0A#8, 0x15#8, 0x18#8, 0x1E#8, 0x29#8, 0x33#8, 0x55#8, 0x65#8] := by
  unfold decodeF
  split
  case h_10 h1 h2 h3 h4 h5 h6 h7 h8 h9 =>
    have hkk : kk ∉ [0x07#8, 0x0A#8, 0x15#8, 0x18#8, 0x1E#8, 0x29#8, 0x33#8, 0x55#8, 0x65#8] := by
      simpa using ⟨h1, h2, h3, h4, h5, h6, h7, h8, h9⟩
    simp [hkk, eq_comm]
  all_goals simp

/-- R51: the class a word is rejected under, less 0nnn. -/
inductive RejectedAs (w : Word) : Reject → Prop where
  | class5 (hop : fieldOp w = 0x5#4) (hn : fieldN w ≠ 0x0#4) : RejectedAs w .class5
  | class8 (hop : fieldOp w = 0x8#4) (hn : fieldN w ∈ [0x8#4, 0x9#4, 0xA#4, 0xB#4, 0xC#4, 0xD#4, 0xF#4]) :
      RejectedAs w .class8
  | class9 (hop : fieldOp w = 0x9#4) (hn : fieldN w ≠ 0x0#4) : RejectedAs w .class9
  | classE (hop : fieldOp w = 0xE#4) (hkk : fieldKk w ∉ [0x9E#8, 0xA1#8]) : RejectedAs w .classE
  | classF (hop : fieldOp w = 0xF#4)
      (hkk : fieldKk w ∉ [0x07#8, 0x0A#8, 0x15#8, 0x18#8, 0x1E#8, 0x29#8, 0x33#8, 0x55#8, 0x65#8]) :
      RejectedAs w .classF

theorem decodeWord_error_iff (w : Word) (c : Reject) : decodeWord w = .error c ↔ RejectedAs w c := by
  constructor
  · intro h
    unfold decodeWord at h
    split at h
    case h_6 hop =>
      split at h
      · cases h
      · next hn => cases h; exact .class5 hop hn
    case h_9 hop =>
      obtain ⟨rfl, hn⟩ := (decode8_error_iff _ _ _ _).mp h
      exact .class8 hop hn
    case h_10 hop =>
      split at h
      · cases h
      · next hn => cases h; exact .class9 hop hn
    case h_15 hop =>
      obtain ⟨rfl, hkk⟩ := (decodeE_error_iff _ _ _).mp h
      exact .classE hop hkk
    case h_16 =>
      have hop : fieldOp w = 0xF#4 := by
        simp only [imp_false] at *
        bv_omega
      obtain ⟨rfl, hkk⟩ := (decodeF_error_iff _ _ _).mp h
      exact .classF hop hkk
    all_goals cases h
  · intro h
    cases h with
    | class5 hop hn => simp [decodeWord, hop, hn]
    | class8 hop hn => simpa only [decodeWord, hop] using (decode8_error_iff _ _ _ _).mpr ⟨rfl, hn⟩
    | class9 hop hn => simp [decodeWord, hop, hn]
    | classE hop hkk => simpa only [decodeWord, hop] using (decodeE_error_iff _ _ _).mpr ⟨rfl, hkk⟩
    | classF hop hkk => rw [decodeWord, hop]; exact (decodeF_error_iff _ _ _).mpr ⟨rfl, hkk⟩

end Sys2Proof

open Sys2Proof

/-- Settles O3: a row's mask and match fix the literal fields, the operands are read from the word, and what is decoded has the
word it was decoded from. -/
theorem recognizedExactlyByMatchAndMask : Obligations.RecognizedExactlyByMatchAndMask := by
  unfold Obligations.RecognizedExactlyByMatchAndMask
  refine fun w => ⟨⟨?_, ?_⟩, fun i h => decoded_matches_row h⟩
  · rintro ⟨i, h, hrow⟩
    exact ⟨rowOf i, hrow, decoded_matches_row h⟩
  · rintro ⟨r, hr, h⟩
    obtain ⟨i, hi, rfl⟩ := decodeWord_of_row hr h
    exact ⟨i, hi, hr⟩

/-- Settles O4: each family rejects under its own class, and no family under `truncated`. -/
theorem rejectedWordsByClass : Obligations.RejectedWordsByClass := by
  unfold Obligations.RejectedWordsByClass
  intro w
  simp only [ne_eq, decodeWord_error_iff]
  refine ⟨⟨?_, fun h => .class5 h.1 h.2⟩, ⟨?_, fun h => .class8 h.1 h.2⟩, ⟨?_, fun h => .class9 h.1 h.2⟩,
    ⟨?_, fun h => .classE h.1 h.2⟩, ⟨?_, fun h => .classF h.1 h.2⟩, nofun⟩
  all_goals
    intro h
    cases h with
    | _ hop hlow => exact ⟨hop, hlow⟩

/-- Settles O6: the nine words are decoded. -/
theorem wordsOfTheSpecsExamplesDecode : Obligations.WordsOfTheSpecsExamplesDecode := by
  unfold Obligations.WordsOfTheSpecsExamplesDecode
  decide
end

section
/-! Everything an instruction can do, said once: its outcome, and its effect before the outcome is written. Outcomes, the advance
of `PC`, the frames and the freedom from faults follow from it (spec/00_scope.md R8, spec/40_fetch_decode_execute.md R64,
spec/60_exceptions.md R120, R125). -/

namespace Sys2Proof.Machine

/-! ### The least pressed key -/

theorem keyIndices_length : keyIndices.length = 16 := by
  simp [keyIndices]

theorem keyIndices_getElem (k : Nat) (h : k < keyIndices.length) : keyIndices[k] = BitVec.ofNat 4 k := by
  simp [keyIndices]

theorem mem_keyIndices (k : Reg) : k ∈ keyIndices := by
  rw [keyIndices, List.mem_map]
  exact ⟨k.toNat, List.mem_range.mpr k.isLt, by simp⟩

theorem lowestKey_eq_none_iff (s : State) : s.lowestKey = none ↔ ∀ k, s.keyDown k = false := by
  simp only [State.lowestKey, List.find?_eq_none, mem_keyIndices, true_implies, Bool.not_eq_true]

/-- A key that is down with no lesser key down is the one `LD Vx, K` finds (R112). -/
theorem lowestKey_eq_some {s : State} {k : Reg} (hk : s.keyDown k = true)
    (hmin : ∀ j : Reg, j.toNat < k.toNat → s.keyDown j = false) : s.lowestKey = some k := by
  have hlen : k.toNat < keyIndices.length := by
    rw [keyIndices_length]
    exact k.isLt
  rw [State.lowestKey, List.find?_eq_some_iff_getElem]
  refine ⟨hk, k.toNat, hlen, by rw [keyIndices_getElem]; simp, fun j hj => ?_⟩
  have hj16 : j < 2 ^ 4 := hj.trans k.isLt
  rw [keyIndices_getElem, hmin _ (by rwa [BitVec.toNat_ofNat, Nat.mod_eq_of_lt hj16])]
  rfl

/-! ### The outcome of an instruction -/

/-- The outcome with which `i` ends in `s` (R8). -/
def State.outcomeOf (s : State) (i : Instr) : StepOutcome :=
  match i with
  | .sentinel => .noInstruction
  | .sys _ => .ignored
  | .ldVxK _ => if s.lowestKey = none then .waiting else .executed
  | _ => .executed

theorem outcomeOf_ldVxK_of_key {s : State} {k : Reg} (h : s.lowestKey = some k) (x : Reg) :
    s.outcomeOf (.ldVxK x) = .executed := by
  simp [State.outcomeOf, h]

theorem outcomeOf_ldVxK_of_none {s : State} (h : s.lowestKey = none) (x : Reg) :
    s.outcomeOf (.ldVxK x) = .waiting := by
  simp [State.outcomeOf, h]

theorem outcomeOf_eq_noInstruction_iff (s : State) (i : Instr) : s.outcomeOf i = .noInstruction ↔ i = .sentinel := by
  cases i
  case ldVxK x => cases h : s.lowestKey <;> simp [State.outcomeOf, h]
  all_goals simp [State.outcomeOf]

theorem outcomeOf_eq_ignored_iff (s : State) (i : Instr) : s.outcomeOf i = .ignored ↔ ∃ nnn, i = .sys nnn := by
  cases i
  case ldVxK x => cases h : s.lowestKey <;> simp [State.outcomeOf, h]
  all_goals simp [State.outcomeOf]

theorem outcomeOf_eq_waiting_iff (s : State) (i : Instr) :
    s.outcomeOf i = .waiting ↔ (∃ x, i = .ldVxK x) ∧ ∀ k, s.keyDown k = false := by
  rw [← lowestKey_eq_none_iff]
  cases i
  case ldVxK x => cases h : s.lowestKey <;> simp [State.outcomeOf, h]
  all_goals simp [State.outcomeOf]

theorem statusAfter_eq_waitingForKey_iff (o : StepOutcome) : statusAfter o = .waitingForKey ↔ o = .waiting := by
  cases o <;> simp [statusAfter]

/-! ### The effect of an instruction -/

/-- What a straight-line instruction writes before `PC` advances: registers it may write, the bytes it stores at `I`, `I`, the
display, or one timer. -/
inductive Update (i : Instr) (s : State) : State → Prop where
  | regs (v : Vector Byte 16) (hv : ∀ r, ¬ i.writesReg r → ({ s with v := v } : State).getV r = s.getV r) :
      Update i s { s with v := v }
  | store (bs : List Byte) (hlen : bs.length = i.storeCount) : Update i s (s.memWrite s.i bs)
  | addr (a : Word) (hi : (∃ nnn, i = .ldI nnn) ∨ (∃ x, i = .addI x) ∨ ∃ x, i = .ldF x) : Update i s (s.setI a)
  | draw (d : Display) (v : Vector Byte 16) (hi : i = .cls ∨ ∃ x y n, i = .drw x y n)
      (hv : ∀ r, ¬ i.writesReg r → ({ s with v := v } : State).getV r = s.getV r) :
      Update i s { s with v := v, disp := d }
  | delay (b : Byte) : Update i s (s.setDt b)
  | sound (b : Byte) : Update i s (s.setSt b)

/-- What `i` makes of `s` before the outcome is written. -/
inductive Effect (i : Instr) (s : State) : State → Prop where
  | still (ho : s.outcomeOf i ≠ .executed) : Effect i s s
  | straight {u : State} (hu : Update i s u) (ho : s.outcomeOf i = .executed) : Effect i s (u.setPc (s.pc + 2#16))
  | skip (c : Bool) (hi : i.isSkip = true) (ho : s.outcomeOf i = .executed) :
      Effect i s (s.setPc (s.pc + if c then 4#16 else 2#16))
  | jump (a : Word) (hi : i.isTransfer = true) : Effect i s (s.setPc a)
  | call (nnn : Addr12) (hi : i = .call nnn) : Effect i s ((s.push (s.pc + 2#16)).setPc (addrOperand nnn))
  | retEmpty (hi : i = .ret) : Effect i s s
  | retPop (hi : i = .ret) : Effect i s s.pop

theorem Update.setV {i : Instr} {s : State} {x : Reg} {b : Byte} (h : i.writesReg x) : Update i s (s.setV x b) := by
  refine .regs _ fun r hr => (getV_setV s x r b).trans (if_neg ?_)
  rintro rfl
  exact hr h

theorem Update.setFlagThenV {i : Instr} {s : State} {x : Reg} {f b : Byte} (h : i.writesReg x)
    (hf : i.writesReg 0xF#4) : Update i s (s.setFlagThenV x f b) := by
  refine .regs _ fun r hr => (getV_setFlagThenV s x r f b).trans ?_
  have hx : r ≠ x := by rintro rfl; exact hr h
  have hF : r ≠ 0xF#4 := by rintro rfl; exact hr hf
  rw [if_neg hx, if_neg hF]

@[simp] theorem loadFirst_pc (s : State) (count : Nat) : (s.loadFirst count).pc = s.pc := by
  rw [loadFirst_eq]

theorem Update.loadFirst (x : Reg) (s : State) : Update (.loadRegs x) s (s.loadFirst (x.toNat + 1)) := by
  rw [loadFirst_eq]
  refine .regs _ fun r hr => ?_
  have hlt : ¬ r.toNat < x.toNat + 1 := fun h => hr (Nat.lt_succ_iff.mp h)
  have hget := getV_loadFirst s (x.toNat + 1) x.isLt r
  rwa [if_neg hlt] at hget

theorem Update.drawSprite (x y : Reg) (n : Nibble) (s : State) (d : Display) (f : Byte) :
    Update (.drw x y n) s ((s.setDisp d).setV 0xF#4 f) :=
  .draw d _ (.inr ⟨x, y, n, rfl⟩) fun r hr => (getV_setV s 0xF#4 r f).trans (if_neg hr)

theorem regRange_length (s : State) (x : Reg) : (s.regRange x).length = x.toNat + 1 := by
  have := x.isLt
  simp only [State.regRange, List.length_take, Vector.length_toList]
  omega

/-- Every instruction, in every state, answers a next state: an effect of its own, then the outcome. -/
theorem exec_answers (i : Instr) (s : State) : ∃ u, exec i s = .next (u.ended (s.outcomeOf i)) ∧ Effect i s u := by
  cases i
  case ldImm | addImm | ldReg | orReg | andReg | xorReg | rnd | ldVxDt => exact ⟨_, rfl, .straight (.setV rfl) rfl⟩
  case addReg | sub | subn | shr | shl => exact ⟨_, rfl, .straight (.setFlagThenV (.inl rfl) (.inr rfl)) rfl⟩
  case loadRegs x =>
    refine ⟨_, ?_, .straight (.loadFirst x s) rfl⟩
    simp only [exec, execLoadRegs, straight, finish, loadFirst_pc, State.outcomeOf]
  case ldB x => exact ⟨_, rfl, .straight (.store (bcdDigits (s.getV x)) rfl) rfl⟩
  case storeRegs x => exact ⟨_, rfl, .straight (.store _ (regRange_length s x)) rfl⟩
  case ldI nnn => exact ⟨_, rfl, .straight (.addr _ (.inl ⟨nnn, rfl⟩)) rfl⟩
  case addI x => exact ⟨_, rfl, .straight (.addr _ (.inr (.inl ⟨x, rfl⟩))) rfl⟩
  case ldF x => exact ⟨_, rfl, .straight (.addr _ (.inr (.inr ⟨x, rfl⟩))) rfl⟩
  case cls => exact ⟨_, rfl, .straight (.draw Display.off s.v (.inl rfl) fun _ _ => rfl) rfl⟩
  case drw x y n => exact ⟨_, rfl, .straight (.drawSprite x y n s _ _) rfl⟩
  case ldDtVx x => exact ⟨_, rfl, .straight (.delay (s.getV x)) rfl⟩
  case ldStVx x => exact ⟨_, rfl, .straight (.sound (s.getV x)) rfl⟩
  case seImm | sneImm | seReg | sneReg | skp | sknp => exact ⟨_, rfl, .skip _ rfl rfl⟩
  case jp | jpV0 => exact ⟨_, rfl, .jump _ rfl⟩
  case call nnn => exact ⟨_, rfl, .call nnn rfl⟩
  case ret =>
    refine ⟨_, rfl, ?_⟩
    split
    · exact .retEmpty rfl
    · exact .retPop rfl
  case ldVxK x =>
    cases hk : s.lowestKey with
    | some k =>
      rw [outcomeOf_ldVxK_of_key hk]
      refine ⟨_, ?_, .straight (.setV (x := x) (b := k.setWidth 8) rfl) (outcomeOf_ldVxK_of_key hk x)⟩
      simp only [exec, execLdVxK, State.afterWaitKey, hk]
    | none =>
      have ho := outcomeOf_ldVxK_of_none hk x
      refine ⟨s, ?_, .still (by rw [ho]; nofun)⟩
      rw [ho]
      simp only [exec, execLdVxK, State.afterWaitKey, hk]
  case sys | sentinel => exact ⟨s, rfl, .still nofun⟩

theorem exec_effect {i : Instr} {s t : State} (h : exec i s = .next t) :
    ∃ u, Effect i s u ∧ t = u.ended (s.outcomeOf i) := by
  obtain ⟨u, hu, he⟩ := exec_answers i s
  rw [hu] at h
  exact ⟨u, he, (Host.Outcome.next.inj h).symm⟩

theorem exec_outcome {i : Instr} {s t : State} (h : exec i s = .next t) : t.outcome = some (s.outcomeOf i) := by
  obtain ⟨u, -, rfl⟩ := exec_effect h
  rfl

theorem exec_status {i : Instr} {s t : State} (h : exec i s = .next t) : t.status = statusAfter (s.outcomeOf i) := by
  obtain ⟨u, -, rfl⟩ := exec_effect h
  rfl

/-! ### Frames -/

theorem getV_effect {i : Instr} {s u : State} (h : Effect i s u) {r : Reg} (hr : ¬ i.writesReg r) :
    u.getV r = s.getV r := by
  cases h with
  | straight hu =>
    cases hu with
    | regs v hv => exact hv r hr
    | draw d v hi hv => exact hv r hr
    | _ => rfl
  | _ => rfl

theorem mem_effect {i : Instr} {s u : State} (h : Effect i s u) :
    (∃ bs : List Byte, bs.length = i.storeCount ∧ u.mem = writeBytes s.mem s.i bs) ∨ u.mem = s.mem := by
  cases h with
  | straight hu =>
    cases hu with
    | store bs hlen => exact .inl ⟨bs, hlen, rfl⟩
    | _ => exact .inr rfl
  | _ => exact .inr rfl

theorem addr_effect {i : Instr} {s u : State} (h : Effect i s u) (hI : ∀ nnn, i ≠ .ldI nnn) (hadd : ∀ x, i ≠ .addI x)
    (hF : ∀ x, i ≠ .ldF x) : u.i = s.i := by
  cases h with
  | straight hu =>
    cases hu with
    | addr a hi =>
      rcases hi with ⟨nnn, rfl⟩ | ⟨x, rfl⟩ | ⟨x, rfl⟩
      · exact absurd rfl (hI nnn)
      · exact absurd rfl (hadd x)
      · exact absurd rfl (hF x)
    | _ => rfl
  | _ => rfl

theorem stack_effect {i : Instr} {s u : State} (h : Effect i s u) (hcall : ∀ nnn, i ≠ .call nnn) : u.stack = s.stack := by
  cases h with
  | straight hu => cases hu <;> rfl
  | call nnn hi => exact absurd hi (hcall nnn)
  | _ => rfl

theorem sp_effect {i : Instr} {s u : State} (h : Effect i s u) (hcall : ∀ nnn, i ≠ .call nnn) (hret : i ≠ .ret) :
    u.sp = s.sp := by
  cases h with
  | straight hu => cases hu <;> rfl
  | call nnn hi => exact absurd hi (hcall nnn)
  | retPop hi => exact absurd hi hret
  | _ => rfl

theorem disp_effect {i : Instr} {s u : State} (h : Effect i s u) (hcls : i ≠ .cls) (hdrw : ∀ x y n, i ≠ .drw x y n) :
    u.disp = s.disp := by
  cases h with
  | straight hu =>
    cases hu with
    | draw d v hi hv =>
      rcases hi with rfl | ⟨x, y, n, rfl⟩
      · exact absurd rfl hcls
      · exact absurd rfl (hdrw x y n)
    | _ => rfl
  | _ => rfl

theorem sameControls_effect {i : Instr} {s u : State} (h : Effect i s u) : SameControls s u := by
  cases h with
  | straight hu => cases hu <;> constructor <;> rfl
  | _ => constructor <;> rfl

theorem sameSamples_effect {i : Instr} {s u : State} (h : Effect i s u) : SameSamples s u := by
  cases h with
  | straight hu => cases hu <;> constructor <;> rfl
  | _ => constructor <;> rfl

theorem exec_sameControls {i : Instr} {s t : State} (h : exec i s = .next t) : SameControls s t := by
  obtain ⟨u, he, rfl⟩ := exec_effect h
  exact { sameControls_effect he with }

theorem exec_sameSamples {i : Instr} {s t : State} (h : exec i s = .next t) : SameSamples s t := by
  obtain ⟨u, he, rfl⟩ := exec_effect h
  exact { sameSamples_effect he with }

/-! ### The advance of `PC` -/

theorem pc_effect {i : Instr} {s u : State} (h : Effect i s u) (hi : i.isTransfer = false) :
    (s.outcomeOf i = .executed → u.pc = s.pc + 2#16 ∨ (i.isSkip = true ∧ u.pc = s.pc + 4#16)) ∧
    (s.outcomeOf i ≠ .executed → u.pc = s.pc) := by
  cases h with
  | still ho => exact ⟨fun h => absurd h ho, fun _ => rfl⟩
  | straight _ ho => exact ⟨fun _ => .inl rfl, fun h => absurd ho h⟩
  | skip c hskip ho =>
    refine ⟨fun _ => ?_, fun h => absurd ho h⟩
    cases c with
    | false => exact .inl rfl
    | true => exact .inr ⟨hskip, rfl⟩
  | jump a hj => rw [hj] at hi; nomatch hi
  | call nnn hc => rw [hc] at hi; nomatch hi
  | retEmpty hr => rw [hr] at hi; nomatch hi
  | retPop hr => rw [hr] at hi; nomatch hi

/-! ### Every step answers a next state -/

theorem completes_exec (i : Instr) (s : State) : Completes (exec i s) := by
  obtain ⟨u, hu, -⟩ := exec_answers i s
  exact ⟨_, hu⟩

theorem completes_endInstr {r : Result} (h : Completes r) (j : Option Instr) : Completes (endInstr j r) := by
  obtain ⟨t, rfl⟩ := h
  exact ⟨t.settle j, rfl⟩

theorem completes_instrStep (s : State) : Completes (instrStep s) := by
  unfold instrStep
  split
  · exact completes_endInstr (completes_exec _ _) _
  · exact completes_endInstr ⟨_, rfl⟩ _

theorem completes_step (s : State) : Completes (step s) := by
  cases h : s.turn with
  | host m => exact ⟨_, step_of_host h⟩
  | idle => exact ⟨_, step_of_idle h⟩
  | tick => exact ⟨_, step_of_tick h⟩
  | instr =>
    rw [step_of_instr h]
    exact completes_instrStep _

end Sys2Proof.Machine

open Sys2Proof Sys2Proof.Machine

/-- Settles O10: a host move, an idle step and a tick are functions of the state, and every instruction has an effect. -/
theorem noStepFaultsOrIsRefused : Obligations.NoStepFaultsOrIsRefused := by
  unfold Obligations.NoStepFaultsOrIsRefused
  exact completes_step

/-- Settles O11: the outcome is that of `outcomeOf`, and the status follows it. -/
theorem everyInstructionHasOneOutcome : Obligations.EveryInstructionHasOneOutcome := by
  unfold Obligations.EveryInstructionHasOneOutcome
  intro i s
  obtain ⟨u, hu, -⟩ := exec_answers i s
  refine ⟨_, hu, ?_⟩
  simp only [State.ended_outcome, State.ended_status, Option.some.injEq]
  refine ⟨outcomeOf_eq_noInstruction_iff s i, outcomeOf_eq_ignored_iff s i, outcomeOf_eq_waiting_iff s i, ?_,
    statusAfter_eq_waitingForKey_iff _⟩
  cases s.outcomeOf i <;> simp

/-- Settles O12: a straight-line instruction adds 2, a skip 2 or 4, and an instruction that is not executed nothing. -/
theorem programCounterAdvance : Obligations.ProgramCounterAdvance := by
  unfold Obligations.ProgramCounterAdvance
  intro i s t h hi
  obtain ⟨u, he, rfl⟩ := exec_effect h
  simpa using pc_effect he hi

/-- Settles O48: by the effect's register writes. -/
theorem frameOfRegisters : Obligations.FrameOfRegisters := by
  unfold Obligations.FrameOfRegisters
  intro i s t h r hr
  obtain ⟨u, he, rfl⟩ := exec_effect h
  exact getV_effect he hr

/-- Settles O49: an effect stores a run of `storeCount` bytes from `I` on, or leaves memory alone. -/
theorem frameOfMemory : Obligations.FrameOfMemory := by
  unfold Obligations.FrameOfMemory
  intro i s t h
  obtain ⟨u, he, rfl⟩ := exec_effect h
  obtain ⟨bs, hlen, hmem⟩ | hmem := mem_effect he
  · rw [State.ended_mem, hmem, ← hlen]
    refine ⟨fun a ha => readByte_writeBytes_other _ _ _ _ ha, fun h0 => ?_⟩
    rw [List.eq_nil_of_length_eq_zero h0, writeBytes]
  · rw [State.ended_mem, hmem]
    exact ⟨fun _ _ => rfl, fun _ => rfl⟩

/-- Settles O50: by the effect's writes of `I`, the stack, `SP` and the display. -/
theorem frameOfSpecialState : Obligations.FrameOfSpecialState := by
  unfold Obligations.FrameOfSpecialState
  intro i s t h
  obtain ⟨u, he, rfl⟩ := exec_effect h
  simp only [State.ended_i, State.ended_stack, State.ended_sp, State.ended_disp]
  exact ⟨addr_effect he, stack_effect he, sp_effect he, disp_effect he⟩

/-- Settles O51: no effect writes a control or a sample. -/
theorem programsCannotReachTheControls : Obligations.ProgramsCannotReachTheControls := by
  unfold Obligations.ProgramsCannotReachTheControls
  exact fun _ _ _ h => ⟨exec_sameControls h, exec_sameSamples h⟩
end

section
/-! Which instructions read SHIFT_USES_VY and the samples of the step: every other one runs alike when they are replaced
(spec/40_fetch_decode_execute.md R66, spec/10_state.md R20). -/

namespace Sys2Proof.Machine

/-- `s` with SHIFT_USES_VY, `Now()`, `Rand()` and the keys replaced. -/
def State.withEnv (s : State) (q : Bool) (n : Instant) (r : Byte) (ks : Vector Bool 16) : State :=
  { s with shiftUsesVy := q, now := n, rand := r, keys := ks }

/-- `i` is neither shift. -/
def ReadsNoShiftFlag (i : Instr) : Prop := (∀ x y, i ≠ .shr x y) ∧ ∀ x y, i ≠ .shl x y

/-- `i` is none of the timer instructions. -/
def ReadsNoTime (i : Instr) : Prop := (∀ x, i ≠ .ldVxDt x) ∧ (∀ x, i ≠ .ldDtVx x) ∧ ∀ x, i ≠ .ldStVx x

/-- `i` is not `RND`. -/
def ReadsNoRand (i : Instr) : Prop := ∀ x kk, i ≠ .rnd x kk

/-- `i` is none of the keypad instructions. -/
def ReadsNoKeys (i : Instr) : Prop := (∀ x, i ≠ .skp x) ∧ (∀ x, i ≠ .sknp x) ∧ ∀ x, i ≠ .ldVxK x

variable {q : Bool} {n : Instant} {r : Byte} {ks : Vector Bool 16} {s t : State}

theorem drawRows_withEnv (px py rows : Nat) : (s.withEnv q n r ks).drawRows px py rows = s.drawRows px py rows := by
  induction rows with
  | zero => rfl
  | succ k ih =>
    rw [State.drawRows, ih]
    rfl

theorem loadFirst_withEnv (count : Nat) :
    (s.withEnv q n r ks).loadFirst count = (s.loadFirst count).withEnv q n r ks := by
  induction count with
  | zero => rfl
  | succ k ih =>
    rw [State.loadFirst, ih]
    rfl

theorem straight_withEnv (h : straight s = .next t) : straight (s.withEnv q n r ks) = .next (t.withEnv q n r ks) := by
  obtain rfl := Host.Outcome.next.inj h
  rfl

theorem execRet_withEnv (h : execRet s = .next t) : execRet (s.withEnv q n r ks) = .next (t.withEnv q n r ks) := by
  obtain rfl := Host.Outcome.next.inj h
  by_cases hsp : s.sp = 0x00#8
  · have hsp' : (s.withEnv q n r ks).sp = 0x00#8 := hsp
    simp only [execRet, hsp, hsp', if_true]
    rfl
  · have hsp' : (s.withEnv q n r ks).sp ≠ 0x00#8 := hsp
    simp only [execRet, hsp, hsp', if_false]
    rfl

theorem execLdVxK_withEnv {x : Reg} (h : execLdVxK x s = .next t) :
    execLdVxK x (s.withEnv q n r s.keys) = .next (t.withEnv q n r s.keys) := by
  obtain rfl := Host.Outcome.next.inj h
  have hlow : (s.withEnv q n r s.keys).lowestKey = s.lowestKey := rfl
  simp only [execLdVxK, State.afterWaitKey, hlow]
  cases s.lowestKey <;> rfl

/-- Each of the four may be replaced under an instruction that does not read it: `exec` then answers the same state with the
same replacement. -/
theorem exec_withEnv {i : Instr} (h : exec i s = .next t) (hq : q = s.shiftUsesVy ∨ ReadsNoShiftFlag i)
    (hn : n = s.now ∨ ReadsNoTime i) (hr : r = s.rand ∨ ReadsNoRand i) (hk : ks = s.keys ∨ ReadsNoKeys i) :
    exec i (s.withEnv q n r ks) = .next (t.withEnv q n r ks) := by
  cases i
  case shr x y =>
    obtain rfl := hq.resolve_right fun hi => hi.1 x y rfl
    exact straight_withEnv h
  case shl x y =>
    obtain rfl := hq.resolve_right fun hi => hi.2 x y rfl
    exact straight_withEnv h
  case ldVxDt x =>
    obtain rfl := hn.resolve_right fun hi => hi.1 x rfl
    exact straight_withEnv h
  case ldDtVx x =>
    obtain rfl := hn.resolve_right fun hi => hi.2.1 x rfl
    exact straight_withEnv h
  case ldStVx x =>
    obtain rfl := hn.resolve_right fun hi => hi.2.2 x rfl
    exact straight_withEnv h
  case rnd x kk =>
    obtain rfl := hr.resolve_right fun hi => hi x kk rfl
    exact straight_withEnv h
  case skp x =>
    obtain rfl := hk.resolve_right fun hi => hi.1 x rfl
    obtain rfl := Host.Outcome.next.inj h
    rfl
  case sknp x =>
    obtain rfl := hk.resolve_right fun hi => hi.2.1 x rfl
    obtain rfl := Host.Outcome.next.inj h
    rfl
  case ldVxK x =>
    obtain rfl := hk.resolve_right fun hi => hi.2.2 x rfl
    exact execLdVxK_withEnv h
  case drw x y m =>
    have hdraw : (s.withEnv q n r ks).drawSprite x y m = s.drawSprite x y m := drawRows_withEnv _ _ _
    simp only [exec, execDrw, hdraw]
    exact straight_withEnv h
  case loadRegs x =>
    simp only [exec, execLoadRegs, loadFirst_withEnv]
    exact straight_withEnv h
  case ret => exact execRet_withEnv h
  case cls | ldImm | addImm | ldReg | orReg | andReg | xorReg | addReg | sub | subn | ldI | addI | ldF | ldB | storeRegs =>
    exact straight_withEnv h
  case jp | jpV0 | call | seImm | sneImm | seReg | sneReg | sys | sentinel =>
    obtain rfl := Host.Outcome.next.inj h
    rfl

end Sys2Proof.Machine

open Sys2Proof Sys2Proof.Machine

/-- Settles O52: the flag alone is replaced; the answer has the samples and the flag it was given. -/
theorem onlyShiftsReadTheShiftFlag : Obligations.OnlyShiftsReadTheShiftFlag := by
  unfold Obligations.OnlyShiftsReadTheShiftFlag
  intro i s t q hshr hshl h
  obtain ⟨hkeys, hnow, hrand, -⟩ := exec_sameSamples h
  have he := exec_withEnv h (q := q) (.inr ⟨hshr, hshl⟩) (.inl rfl) (.inl rfl) (.inl rfl)
  simpa only [State.withEnv, hnow, hrand, hkeys] using he

/-- Settles O53: one sample alone is replaced; the answer has the others and the flag it was given. -/
theorem samplesAreReadOnlyWhereNamed : Obligations.SamplesAreReadOnlyWhereNamed := by
  unfold Obligations.SamplesAreReadOnlyWhereNamed
  intro i s t h
  obtain ⟨hkeys, hnow, hrand, -⟩ := exec_sameSamples h
  have hflag := (exec_sameControls h).shiftUsesVy
  refine ⟨fun q hdt hsetDt hsetSt => ?_, fun q hrnd => ?_, fun q hskp hsknp hwait => ?_⟩
  · have he := exec_withEnv h (n := q) (.inl rfl) (.inr ⟨hdt, hsetDt, hsetSt⟩) (.inl rfl) (.inl rfl)
    simpa only [State.withEnv, hflag, hrand, hkeys] using he
  · have he := exec_withEnv h (r := q) (.inl rfl) (.inl rfl) (.inr hrnd) (.inl rfl)
    simpa only [State.withEnv, hflag, hnow, hkeys] using he
  · have he := exec_withEnv h (ks := q) (.inl rfl) (.inl rfl) (.inl rfl) (.inr ⟨hskp, hsknp, hwait⟩)
    simpa only [State.withEnv, hflag, hnow, hrand] using he
end

section
/-! The invariant of every step (spec/10_state.md R17, spec/00_scope.md R7, spec/70_reset_and_hazards.md R146): time only goes
on, memory is written only through its operations, and the outcome and the status are written together. -/

namespace Sys2Proof.Machine

variable {s u : State} {i : Instr}

/-! ### Time -/

theorem elapsed_nonneg (k : Nat) : (0 : Instant) ≤ (Config.elapsed k).val := (Config.elapsed k).property

theorem tickSleep_nonneg : (0 : Instant) ≤ Config.tickSleep.val := Config.tickSleep.property

theorem now_le_sampleNow (s : State) : s.now ≤ s.sampleNow.now := le_add_of_nonneg_right (elapsed_nonneg _)

theorem now_le_beginInstr (s : State) : s.now ≤ s.beginInstr.now := le_add_of_nonneg_right (elapsed_nonneg _)

theorem tickSleep_le_sleepTick (s : State) : s.now + Config.tickSleep.val ≤ s.sleepTick.now :=
  le_add_of_nonneg_right (elapsed_nonneg _)

theorem now_le_sleepTick (s : State) : s.now ≤ s.sleepTick.now :=
  (le_add_of_nonneg_right tickSleep_nonneg).trans (tickSleep_le_sleepTick s)

/-- An anchor that is not in the future stays so. -/
theorem State.Inv.later (h : s.Inv) {n : Instant} (hn : s.now ≤ n) : ({ s with now := n } : State).Inv :=
  { h with
    nowNonneg := h.nowNonneg.trans hn
    dtAnchor := h.dtAnchor.imp_right fun ha => ha.trans hn
    stAnchor := h.stAnchor.imp_right fun ha => ha.trans hn
    lastTick := h.lastTick.trans hn }

/-! ### The instruction step -/

theorem State.Inv.beginInstr (h : s.Inv) : s.beginInstr.Inv := { h.later (now_le_beginInstr s) with }

theorem State.Inv.update (h : s.Inv) (hu : Update i s u) : u.Inv := by
  cases hu with
  | store bs => exact { h with memWf := writeBytes_wf h.memWf _ _ }
  | delay b => exact { h with dtAnchor := .inr le_rfl }
  | sound b => exact { h with stAnchor := .inr le_rfl }
  | _ => exact { h with }

theorem State.Inv.effect (h : s.Inv) (he : Effect i s u) : u.Inv := by
  cases he with
  | straight hu => exact { h.update hu with }
  | _ => exact { h with }

/-- The status says WaitingForKey exactly if the outcome is Waiting (R112). -/
theorem State.Inv.ended (h : s.Inv) (o : StepOutcome) : (s.ended o).Inv :=
  { h with waiting := fun hs => congrArg some ((statusAfter_eq_waitingForKey_iff o).mp hs) }

theorem State.Inv.settle (h : s.Inv) (j : Option Instr) : (s.settle j).Inv := { h with }

theorem State.Inv.exec {t : State} (h : s.Inv) (ht : exec i s = .next t) : t.Inv := by
  obtain ⟨u, he, rfl⟩ := exec_effect ht
  exact (h.effect he).ended _

theorem State.Inv.instrStep {t : State} (h : s.Inv) (ht : instrStep s = .next t) : t.Inv := by
  unfold Machine.instrStep at ht
  split at ht
  · obtain ⟨u, hu, rfl⟩ := endInstr_eq_next ht
    exact (h.beginInstr.exec hu).settle _
  · obtain ⟨u, hu, rfl⟩ := endInstr_eq_next ht
    obtain rfl := Host.Outcome.next.inj hu
    exact (h.beginInstr.ended _).settle _

/-! ### The host -/

theorem State.Inv.popHost (h : s.Inv) : s.popHost.Inv := { h with }

theorem State.Inv.load (h : s.Inv) (stream : Option (List Byte)) : (s.load stream).Inv := by
  unfold State.load
  split
  · exact { h with }
  · split
    · exact { h with memWf := writeBytes_wf (clearProgram_wf h.memWf) _ _ }
    · exact { h with }

theorem State.Inv.start (h : s.Inv) : s.start.Inv := by
  cases hr : s.runState with
  | idle =>
    rw [start_of_idle hr]
    exact { h.later (now_le_sampleNow s) with lastTick := le_rfl }
  | running =>
    rw [start_of_running hr]
    exact h

theorem State.Inv.hostMove (h : s.Inv) (m : HostMove) : (s.hostMove m).Inv := by
  cases m with
  | start => exact h.start
  | load stream => exact h.load stream
  | setClock hz => exact { h with clockLow := (clampClock_bounds hz).1, clockHigh := (clampClock_bounds hz).2 }
  | _ => exact { h with }

/-! ### The tick -/

theorem State.Inv.sleepTick (h : s.Inv) : s.sleepTick.Inv := { h.later (now_le_sleepTick s) with }

/-- A reset leaves any instant as an anchor, with both set values 0. -/
theorem State.Inv.performReset (h : s.Inv) : s.performReset.Inv :=
  { h with
    memWf := nil_wf
    dtAnchor := .inl rfl
    stAnchor := .inl rfl
    lastTick := le_rfl
    waiting := nofun }

theorem State.Inv.consumeReset (h : s.Inv) : s.consumeReset.Inv := by
  unfold State.consumeReset
  split
  · exact h.performReset
  · exact h

theorem State.Inv.evalAudio (h : s.Inv) : s.evalAudio.Inv := { h with }

theorem State.Inv.grantBudget (h : s.Inv) : s.grantBudget.Inv := by
  refine { h with lastTick := ?_ }
  rw [State.grantBudget_lastInstrTick]
  split
  · exact le_rfl
  · exact h.lastTick

theorem State.Inv.tick (h : s.Inv) : s.tick.Inv := by
  unfold State.tick
  split
  · exact h
  · exact h.sleepTick.consumeReset.evalAudio.grantBudget

theorem State.Inv.step {t : State} (h : s.Inv) (ht : step s = .next t) : t.Inv := by
  cases hturn : s.turn with
  | host m =>
    rw [step_of_host hturn] at ht
    obtain rfl := Host.Outcome.next.inj ht
    exact h.popHost.hostMove m
  | idle =>
    rw [step_of_idle hturn] at ht
    obtain rfl := Host.Outcome.next.inj ht
    exact h.popHost
  | tick =>
    rw [step_of_tick hturn] at ht
    obtain rfl := Host.Outcome.next.inj ht
    exact h.popHost.tick
  | instr =>
    rw [step_of_instr hturn] at ht
    exact h.popHost.instrStep ht

/-! ### Reset -/

theorem clockHz_reset_bounds : 1 ≤ State.reset.clockHz ∧ State.reset.clockHz ≤ clockHzMax := by
  have : 1 ≤ clockHzMax := Nat.le_max_left _ _
  simp only [State.reset]
  omega

theorem reset_inv : State.reset.Inv where
  memWf := nil_wf
  clockLow := clockHz_reset_bounds.1
  clockHigh := clockHz_reset_bounds.2
  nowNonneg := le_rfl
  dtAnchor := .inl rfl
  stAnchor := .inl rfl
  lastTick := le_rfl
  waiting := nofun

end Sys2Proof.Machine

open Sys2Proof Sys2Proof.Machine

/-- Settles O16: by whose turn it is; each operation of the step keeps the invariant. -/
theorem everyStepKeepsTheInvariant : Obligations.EveryStepKeepsTheInvariant := by
  unfold Obligations.EveryStepKeepsTheInvariant
  exact fun _ _ h ht => h.step ht

/-- Settles O17: the rate is brought into its bounds, and every instant is 0. -/
theorem resetMeetsTheInvariant : Obligations.ResetMeetsTheInvariant := reset_inv
end

section
/-! The instruction step, the words without effect, and the runs that change nothing (spec/40_fetch_decode_execute.md R60 to R63,
spec/70_reset_and_hazards.md R144, R149). -/

namespace Sys2Proof.Machine

variable {s t : State} {i : Instr}

/-! ### What a program can reach -/

theorem SameProgramState.refl (s : State) : SameProgramState s s := ⟨rfl, rfl, rfl, rfl, rfl, rfl, rfl, .refl s⟩

theorem SameProgramState.trans {u : State} (hst : SameProgramState s t) (htu : SameProgramState t u) :
    SameProgramState s u :=
  ⟨htu.v.trans hst.v, htu.i.trans hst.i, htu.pc.trans hst.pc, htu.sp.trans hst.sp, htu.stack.trans hst.stack,
    htu.mem.trans hst.mem, htu.disp.trans hst.disp, hst.timers.trans htu.timers⟩

theorem popHost_sameProgramState (s : State) : SameProgramState s s.popHost :=
  { SameProgramState.refl s with timers := popHost_sameTimers s }

theorem beginInstr_sameProgramState (s : State) : SameProgramState s s.beginInstr :=
  { SameProgramState.refl s with timers := beginInstr_sameTimers s }

theorem settle_sameProgramState (s : State) (j : Option Instr) : SameProgramState s (s.settle j) :=
  { SameProgramState.refl s with timers := settle_sameTimers s j }

/-! ### The instruction step by what is fetched -/

theorem instrStep_of_ok (h : s.fetchDecode = .ok i) : instrStep s = endInstr (some i) (exec i s.beginInstr) := by
  have hb : s.beginInstr.fetchDecode = .ok i := (fetchDecode_congr rfl rfl).trans h
  rw [instrStep, hb]

theorem instrStep_of_error {c : Reject} (h : s.fetchDecode = .error c) :
    instrStep s = .next ((s.beginInstr.ended .ignored).settle none) := by
  have hb : s.beginInstr.fetchDecode = .error c := (fetchDecode_congr rfl rfl).trans h
  rw [instrStep, hb]
  rfl

theorem fetchDecode_popHost (s : State) : s.popHost.fetchDecode = s.fetchDecode := fetchDecode_congr rfl rfl

theorem fetchDecode_of_atSentinel (h : s.atSentinel) : s.fetchDecode = .ok .sentinel := by
  rw [fetchDecode_eq, show s.fetchWord = 0x0000#16 from h]
  rfl

theorem noEffect_sameProgramState (s : State) (o : StepOutcome) (j : Option Instr) :
    SameProgramState s ((s.beginInstr.ended o).settle j) :=
  (beginInstr_sameProgramState s).trans ((ended_sameProgramState _ _).trans (settle_sameProgramState _ _))

/-- An instruction step leaves the driver's controls and the host's queue; only the budget and the snapshot change. -/
theorem instrStep_sameControls (h : instrStep s = .next t) :
    SameControls { s with budget := t.budget, snapshot := t.snapshot } t := by
  cases hf : s.fetchDecode with
  | ok i =>
    rw [instrStep_of_ok hf] at h
    obtain ⟨u, hu, rfl⟩ := endInstr_eq_next h
    exact { exec_sameControls hu with budget := rfl, snapshot := rfl }
  | error c =>
    rw [instrStep_of_error hf] at h
    obtain rfl := Host.Outcome.next.inj h
    constructor <;> rfl

/-! ### States that no instruction step changes -/

theorem exec_ret_empty (h : s.sp = 0x00#8) : exec .ret s = .next (s.ended .executed) := by
  rw [exec, execRet, if_pos h, finish]

theorem atSentinel_congr (h : SameProgramState s t) (hs : s.atSentinel) : t.atSentinel :=
  (fetchWord_congr h.mem h.pc).trans hs

theorem atStutter_congr (h : SameProgramState s t) (hs : s.atStutter) : t.atStutter := by
  unfold State.atStutter
  rw [fetchDecode_congr h.mem h.pc, h.sp]
  exact hs

/-- `PC` points at a word whose step changes nothing a program can reach (R149). -/
def State.stands (s : State) : Prop := s.atSentinel ∨ s.atStutter

theorem instrStep_of_stands (hs : s.stands) : ∃ t, instrStep s = .next t ∧ SameProgramState s t := by
  rcases hs with hs | ⟨c, hc⟩ | ⟨nnn, hsys⟩ | ⟨hret, hsp⟩
  · exact ⟨_, instrStep_of_ok (fetchDecode_of_atSentinel hs), noEffect_sameProgramState s _ _⟩
  · exact ⟨_, instrStep_of_error hc, noEffect_sameProgramState s _ _⟩
  · exact ⟨_, instrStep_of_ok hsys, noEffect_sameProgramState s _ _⟩
  · rw [instrStep_of_ok hret, exec_ret_empty (s := s.beginInstr) hsp]
    exact ⟨_, rfl, noEffect_sameProgramState s _ _⟩

/-- With no reset pending a tick changes nothing a program can reach. -/
theorem tick_sameProgramState (hr : s.resetPending = false) : SameProgramState s s.tick := by
  have ht : SameTimers s s.tick := tick_sameTimers fun h => by simp [hr] at h
  cases hd : s.shutdown with
  | true =>
    rw [tick_of_shutdown hd]
    exact .refl s
  | false =>
    have hr' : s.sleepTick.resetPending = false := hr
    rw [tick_of_running hd, consumeReset_none hr'] at ht ⊢
    exact { SameProgramState.refl s with timers := ht }

theorem tick_undisturbed (h : Undisturbed s) : Undisturbed s.tick := by
  cases hd : s.shutdown with
  | true =>
    rw [tick_of_shutdown hd]
    exact h
  | false =>
    have hr' : s.sleepTick.resetPending = false := h.reset
    rw [tick_of_running hd, consumeReset_none hr']
    exact { h with }

theorem instrStep_undisturbed (h : Undisturbed s) (ht : instrStep s = .next t) : Undisturbed t :=
  have hc := instrStep_sameControls ht
  ⟨hc.hostQueue.trans h.host, hc.resetPending.trans h.reset⟩

/-- One step of an undisturbed machine that stands: idle, a tick, or an instruction step without effect. -/
theorem step_of_stands (hu : Undisturbed s) (hs : s.stands) :
    ∃ t, step s = .next t ∧ SameProgramState s t ∧ Undisturbed t := by
  have hpop : s.popHost = s := popHost_of_empty hu.host
  cases hturn : s.turn with
  | host m =>
    have hhead := head_of_host hturn
    rw [hu.host] at hhead
    nomatch hhead
  | idle =>
    rw [step_of_idle hturn, hpop]
    exact ⟨s, rfl, .refl s, hu⟩
  | tick =>
    rw [step_of_tick hturn, hpop]
    exact ⟨s.tick, rfl, tick_sameProgramState hu.reset, tick_undisturbed hu⟩
  | instr =>
    rw [step_of_instr hturn, hpop]
    obtain ⟨t, ht, hsame⟩ := instrStep_of_stands hs
    exact ⟨t, ht, hsame, instrStep_undisturbed hu ht⟩

/-! ### Runs -/

/-- What every step from `P` keeps, a run from `P` keeps. -/
theorem run_of_step {P : State → Prop} {R : State → State → Prop} (hrefl : ∀ s, R s s)
    (htrans : ∀ {s t u}, R s t → R t u → R s u) (hstep : ∀ s, P s → ∃ t, step s = .next t ∧ R s t ∧ P t) (k : Nat) :
    ∀ s, P s → ∃ t, core.run k s = .next t ∧ R s t ∧ P t := by
  induction k with
  | zero => exact fun s hs => ⟨s, rfl, hrefl s, hs⟩
  | succ k ih =>
    intro s hs
    obtain ⟨t, ht, hst, hPt⟩ := hstep s hs
    obtain ⟨u, hu, htu, hPu⟩ := ih t hPt
    exact ⟨u, (run_succ core k ht).trans hu, htrans hst htu, hPu⟩

theorem run_of_fixed (h : step s = .next s) (k : Nat) : core.run k s = .next s := by
  obtain ⟨t, ht, hst, -⟩ := run_of_step (P := (· = s)) (R := Eq) (fun _ => rfl) Eq.trans
    (fun u hu => ⟨s, hu ▸ h, hu, rfl⟩) k s rfl
  rw [ht, ← hst]

/-- Any step-invariant reason to stand holds a run in place. -/
theorem run_of_stands {P : State → Prop} (hP : ∀ s, P s → s.stands)
    (hcongr : ∀ {s t}, SameProgramState s t → P s → P t) (k : Nat) (hu : Undisturbed s) (hs : P s) :
    ∃ t, core.run k s = .next t ∧ SameProgramState s t ∧ P t ∧ Undisturbed t := by
  refine run_of_step (P := fun s => P s ∧ Undisturbed s) .refl .trans (fun s h => ?_) k s ⟨hs, hu⟩
  obtain ⟨t, ht, hsame, hut⟩ := step_of_stands h.2 (hP s h.1)
  exact ⟨t, ht, hsame, hcongr hsame h.1, hut⟩

end Sys2Proof.Machine

open Sys2Proof Sys2Proof.Machine

/-- Settles O8: the samples, the budget and the host's pass come before the instruction, the snapshot and the end of the
budget after it. -/
theorem stepRunsTheDecodedInstruction : Obligations.StepRunsTheDecodedInstruction := by
  unfold Obligations.StepRunsTheDecodedInstruction
  intro s i hturn hi
  have hstep : step s = endInstr (some i) (exec i s.popHost.beginInstr) := by
    rw [step_of_instr hturn, instrStep_of_ok ((fetchDecode_popHost s).trans hi)]
  refine ⟨hstep, (popHost_sameProgramState s).trans (beginInstr_sameProgramState _), rfl, now_le_beginInstr s.popHost,
    rfl, rfl, fun t ht => ⟨?_, settle_sameProgramState t _, rfl, rfl⟩⟩
  rw [hstep, ht]
  rfl

/-- Settles O9: `SYS` ends at once; a step on an unrecognized word or on the sentinel is the samples, the outcome and the
bookkeeping, which ends the budget on NoInstruction alone. -/
theorem wordsWithoutEffect : Obligations.WordsWithoutEffect := by
  unfold Obligations.WordsWithoutEffect
  refine ⟨fun nnn s => ?_, fun s c hturn hc => ?_, fun s hturn hs => ?_⟩
  · exact ⟨s.ended .ignored, rfl, ended_sameProgramState s _, ended_sameSamples s _, ended_sameControls s _, rfl, rfl⟩
  · rw [step_of_instr hturn, instrStep_of_error ((fetchDecode_popHost s).trans hc)]
    exact ⟨_, rfl, (popHost_sameProgramState s).trans (noEffect_sameProgramState _ _ _), rfl, rfl, rfl⟩
  · rw [step_of_instr hturn, instrStep_of_ok ((fetchDecode_popHost s).trans (fetchDecode_of_atSentinel hs))]
    exact ⟨_, rfl, (popHost_sameProgramState s).trans (noEffect_sameProgramState _ _ _), rfl, rfl, rfl⟩

/-- Settles O20: the sentinel stands, and what a program can reach decides what is fetched. -/
theorem sentinelHaltsTheProgram : Obligations.SentinelHaltsTheProgram := by
  unfold Obligations.SentinelHaltsTheProgram
  exact fun s k hu hs => run_of_stands (fun _ => .inl) atSentinel_congr k hu hs

/-- Settles O21: each of the three stutters stands, and what a program can reach decides which it is. -/
theorem stuttersNeverMakeProgress : Obligations.StuttersNeverMakeProgress := by
  unfold Obligations.StuttersNeverMakeProgress
  exact fun s k hu hs => run_of_stands (fun _ => .inr) atStutter_congr k hu hs

/-- Settles O56: in Idle the step only takes from the host's queue, which is empty; after shutdown the tick is the identity. -/
theorem nothingRunsInIdleOrAfterShutdown : Obligations.NothingRunsInIdleOrAfterShutdown := by
  unfold Obligations.NothingRunsInIdleOrAfterShutdown
  intro s k hq hs
  refine run_of_fixed ?_ k
  have hpop : s.popHost = s := popHost_of_empty hq
  have hturn : s.turn = s.threadTurn := turn_of_empty hq
  cases hrun : s.runState with
  | idle =>
    have hidle : s.turn = .idle := by rw [hturn, State.threadTurn, hrun]
    rw [step_of_idle hidle, hpop]
  | running =>
    obtain ⟨hd, hb⟩ := hs.resolve_left (by rw [hrun]; nofun)
    have htick : s.turn = .tick := by rw [hturn, State.threadTurn, hrun, hb]; rfl
    rw [step_of_tick htick, hpop, tick_of_shutdown hd]
end

section
/-! What reset and initialisation leave, field by field (spec/10_state.md R24, spec/70_reset_and_hazards.md R140). -/

namespace Sys2Proof.Machine

variable {s : State}

theorem getV_of_zeroed (h : s.v = Vector.replicate 16 0x00#8) (r : Reg) : s.getV r = 0x00#8 := by
  simp only [State.getV, h, Vector.getElem_replicate]

theorem keyDown_of_released (h : s.keys = Vector.replicate 16 false) (k : Reg) : s.keyDown k = false := by
  simp only [State.keyDown, h, Vector.getElem_replicate]

theorem pixel_of_off (h : s.disp = Display.off) (cx : Fin 64) (cy : Fin 32) : pixel s.disp cx cy = false := by
  rw [h, pixel_off]

theorem stack_of_zeroed (h : s.stack = Vector.replicate 16 0x0000#16) (k : Nat) (hk : k < 16) :
    s.stack[k] = 0x0000#16 := by
  simp only [h, Vector.getElem_replicate]

theorem delayTimer_of_zero (h : s.dtSet = 0x00#8) : s.delayTimer = 0x00#8 := by
  rw [State.delayTimer, h, timerValue_zero]

theorem soundTimer_of_zero (h : s.stSet = 0x00#8) : s.soundTimer = 0x00#8 := by
  rw [State.soundTimer, h, timerValue_zero]

theorem audioLevel_of_zero (h : s.stSet = 0x00#8) : s.audioLevel = false := by
  rw [State.audioLevel, soundTimer_of_zero h]
  rfl

/-- R35: the font's 80 bytes at 0x100, and 0 elsewhere. -/
theorem initialByte_eq (a : Nat) :
    initialByte a = if 0x100 ≤ a ∧ a < 0x150 then fontTable.getD (a - 0x100) 0x00#8 else 0x00#8 := by
  unfold initialByte fontBase
  by_cases hlow : 0x100 ≤ a
  · by_cases hhigh : a < 0x150
    · rw [if_pos hlow, if_pos ⟨hlow, hhigh⟩]
    · have hlen : fontTable.length ≤ a - 0x100 := (by decide : fontTable.length ≤ 0x150 - 0x100).trans (by omega)
      rw [if_pos hlow, if_neg fun h => hhigh h.2, List.getD_eq_default _ _ hlen]
  · rw [if_neg hlow, if_neg fun h => hlow h.1]

theorem readByte_of_initial (h : s.mem = []) (a : Nat) :
    readByte s.mem a = if 0x100 ≤ a ∧ a < 0x150 then fontTable.getD (a - 0x100) 0x00#8 else 0x00#8 := by
  rw [h, readByte, initialByte_eq]

/-- The first word fetched after initialisation is the sentinel: nothing is listed at 0x200 and 0x201. -/
theorem fetchWord_of_initial (hm : s.mem = []) (hp : s.pc = 0x0200#16) : s.fetchWord = 0x0000#16 := by
  simp only [State.fetchWord, State.memRead, hm, hp, readByte]
  decide

theorem init_sameControls (s : State) : SameControls s s.init := by
  constructor <;> rfl

end Sys2Proof.Machine

open Sys2Proof Sys2Proof.Machine

/-- Settles O18: each field of the reset state, read through its accessor. -/
theorem resetValues : Obligations.ResetValues := by
  unfold Obligations.ResetValues
  exact ⟨getV_of_zeroed rfl, rfl, rfl, rfl, stack_of_zeroed rfl, timerValue_zero, timerValue_zero, pixel_of_off rfl,
    keyDown_of_released rfl, fun a _ => readByte_of_initial rfl a, rfl, rfl, rfl, rfl, rfl, rfl, rfl,
    fetchWord_of_initial rfl rfl⟩

/-- Settles O19: each field of Machine State after initialisation, read through its accessor. -/
theorem initialisationOfMachineState : Obligations.InitialisationOfMachineState := by
  unfold Obligations.InitialisationOfMachineState
  intro s
  exact ⟨getV_of_zeroed rfl, rfl, rfl, rfl, stack_of_zeroed rfl, rfl, rfl, fun a _ => readByte_of_initial rfl a,
    pixel_of_off rfl, keyDown_of_released rfl, rfl, init_sameControls s, delayTimer_of_zero rfl, soundTimer_of_zero rfl,
    audioLevel_of_zero rfl, fetchWord_of_initial rfl rfl⟩
end

section
/-! The tick with and without a reset, and the moves of the host (spec/70_reset_and_hazards.md R141 to R146,
spec/60_exceptions.md R130, R137, R138). -/

namespace Sys2Proof.Machine

variable {s t : State}

/-! ### The tick -/

theorem tick_of_reset (hd : s.shutdown = false) (hr : s.resetPending = true) :
    s.tick = s.sleepTick.performReset.evalAudio.grantBudget := by
  rw [tick_of_running hd, consumeReset_pending (s := s.sleepTick) hr]

theorem tick_of_no_reset (hd : s.shutdown = false) (hr : s.resetPending = false) :
    s.tick = s.sleepTick.evalAudio.grantBudget := by
  rw [tick_of_running hd, consumeReset_none (s := s.sleepTick) hr]

/-- With the anchor at the instant of the tick no budget is granted. -/
theorem gatedBudget_of_anchor_now (h : s.lastInstrTick = s.now) : s.gatedBudget = 0 := by
  have hraw : s.rawBudget = 0 := by rw [State.rawBudget, h, sub_self, zero_mul, Nat.floor_zero]
  unfold State.gatedBudget
  rw [hraw, Nat.zero_min, ite_self, ite_self]

theorem edgeBetween_false_right (old : Bool) : edgeBetween old false = if old = true then some .stop else none := by
  cases old <;> rfl

theorem edgeBetween_eq_start_iff (old new : Bool) : edgeBetween old new = some .start ↔ old = false ∧ new = true := by
  cases old <;> cases new <;> simp [edgeBetween]

theorem edgeBetween_eq_stop_iff (old new : Bool) : edgeBetween old new = some .stop ↔ old = true ∧ new = false := by
  cases old <;> cases new <;> simp [edgeBetween]

theorem audioLevel_eq_true_iff (s : State) :
    s.audioLevel = true ↔ 0 < (timerValue s.stSet s.stT0 s.now).toNat := by
  rw [State.audioLevel, State.soundTimer, decide_eq_true_iff]

/-! ### What a tick may do to the controls -/

theorem consumeReset_controls (s : State) :
    s.consumeReset.runState = s.runState ∧ s.consumeReset.shutdown = s.shutdown ∧
      s.consumeReset.singleStepEn = s.singleStepEn ∧ s.consumeReset.singleStepReq = s.singleStepReq ∧
      s.consumeReset.resetPending = false := by
  cases hr : s.resetPending with
  | true =>
    rw [consumeReset_pending hr]
    exact ⟨rfl, rfl, rfl, rfl, rfl⟩
  | false =>
    rw [consumeReset_none hr]
    exact ⟨rfl, rfl, rfl, rfl, hr⟩

/-- A change of the run state and the controls over one step, each by the move or the tick that may make it. -/
structure ControlStep (s t : State) : Prop where
  runState : t.runState = s.runState ∨ (s.hostQueue.head? = some .start ∧ t.runState = .running)
  shutdown : t.shutdown = s.shutdown ∨ (s.hostQueue.head? = some .shutdown ∧ t.shutdown = true)
  singleStepEn : t.singleStepEn = s.singleStepEn ∨ s.hostQueue.head? = some (.setSingleStep t.singleStepEn)
  singleStepReq : t.singleStepReq = s.singleStepReq ∨
    (s.hostQueue.head? = some .requestStep ∧ t.singleStepReq = true) ∨
    (s.turn = .tick ∧ s.shutdown = false ∧ s.singleStepEn = true ∧ t.singleStepReq = false)
  resetPending : t.resetPending = s.resetPending ∨
    (s.hostQueue.head? = some .requestReset ∧ t.resetPending = true) ∨
    (s.turn = .tick ∧ s.shutdown = false ∧ t.resetPending = false)

theorem controlStep_tick (hturn : s.turn = .tick) : ControlStep s s.popHost.tick := by
  cases hd : s.shutdown with
  | true =>
    rw [tick_of_shutdown (s := s.popHost) hd]
    exact ⟨.inl rfl, .inl rfl, .inl rfl, .inl rfl, .inl rfl⟩
  | false =>
    obtain ⟨hrun, hshut, hen, hreq, hreset⟩ := consumeReset_controls s.popHost.sleepTick
    rw [tick_of_running (s := s.popHost) hd]
    refine ⟨.inl hrun, .inl hshut, .inl hen, ?_, .inr (.inr ⟨hturn, hd, hreset⟩)⟩
    simp only [State.grantBudget_singleStepReq, State.evalAudio_singleStepEn, State.evalAudio_singleStepReq, hen, hreq]
    cases hs : s.singleStepEn with
    | true => exact .inr (.inr ⟨hturn, hd, rfl, if_pos hs⟩)
    | false => exact .inl (if_neg (by simp [hs]))

theorem controlStep_instr (h : instrStep s.popHost = .next t) : ControlStep s t :=
  have hc := instrStep_sameControls h
  ⟨.inl hc.runState, .inl hc.shutdown, .inl hc.singleStepEn, .inl hc.singleStepReq, .inl hc.resetPending⟩

theorem controlStep_load (s : State) (stream : Option (List Byte)) : ControlStep s (s.popHost.load stream) := by
  unfold State.load
  split
  · exact ⟨.inl rfl, .inl rfl, .inl rfl, .inl rfl, .inl rfl⟩
  · split <;> exact ⟨.inl rfl, .inl rfl, .inl rfl, .inl rfl, .inl rfl⟩

theorem controlStep_start (h : s.hostQueue.head? = some .start) : ControlStep s s.popHost.start := by
  cases hr : s.runState with
  | idle =>
    rw [start_of_idle (s := s.popHost) hr]
    exact ⟨.inr ⟨h, rfl⟩, .inl rfl, .inl rfl, .inl rfl, .inl rfl⟩
  | running =>
    rw [start_of_running (s := s.popHost) hr]
    exact ⟨.inl rfl, .inl rfl, .inl rfl, .inl rfl, .inl rfl⟩

theorem controlStep_host {m : HostMove} (h : s.hostQueue.head? = some m) : ControlStep s (s.popHost.hostMove m) := by
  cases m with
  | start => exact controlStep_start h
  | load stream => exact controlStep_load s stream
  | requestReset => exact ⟨.inl rfl, .inl rfl, .inl rfl, .inl rfl, .inr (.inl ⟨h, rfl⟩)⟩
  | setSingleStep on => exact ⟨.inl rfl, .inl rfl, .inr h, .inl rfl, .inl rfl⟩
  | requestStep => exact ⟨.inl rfl, .inl rfl, .inl rfl, .inr (.inl ⟨h, rfl⟩), .inl rfl⟩
  | shutdown => exact ⟨.inl rfl, .inr ⟨h, rfl⟩, .inl rfl, .inl rfl, .inl rfl⟩
  | _ => exact ⟨.inl rfl, .inl rfl, .inl rfl, .inl rfl, .inl rfl⟩

theorem controlStep_step (h : step s = .next t) : ControlStep s t := by
  cases hturn : s.turn with
  | host m =>
    rw [step_of_host hturn] at h
    obtain rfl := Host.Outcome.next.inj h
    exact controlStep_host (head_of_host hturn)
  | idle =>
    rw [step_of_idle hturn] at h
    obtain rfl := Host.Outcome.next.inj h
    exact ⟨.inl rfl, .inl rfl, .inl rfl, .inl rfl, .inl rfl⟩
  | tick =>
    rw [step_of_tick hturn] at h
    obtain rfl := Host.Outcome.next.inj h
    exact controlStep_tick hturn
  | instr =>
    rw [step_of_instr hturn] at h
    exact controlStep_instr h

theorem step_of_head {m : HostMove} (h : s.hostQueue.head? = some m) (hm : m ≠ .pass) :
    step s = .next (s.popHost.hostMove m) := step_of_host (turn_of_move h hm)

/-! ### Program load -/

theorem load_of_fits {bs : List Byte} (h : bs.length ≤ 3584) :
    s.load (some bs) = { s with mem := writeBytes (clearProgram s.mem) progBase bs, loadReport := some .success } :=
  if_pos h

theorem load_of_too_long {bs : List Byte} (h : 3584 < bs.length) :
    s.load (some bs) = { s with loadReport := some .failure } :=
  if_neg (Nat.not_le.mpr h)

/-- The program's byte `k` goes to 0x200 + `k`: no address of a program that fits wraps. -/
theorem maskAddr_progBase_add {k : Nat} (h : k < 3584) : maskAddr (progBase + BitVec.ofNat 16 k) = 512 + k := by
  rw [maskAddr_add, show progBase.toNat = 512 from rfl]
  omega

theorem readByte_load_below (m : Memory) {bs : List Byte} (hlen : bs.length ≤ 3584) {a : Nat} (ha : a < 512) :
    readByte (writeBytes (clearProgram m) progBase bs) a = readByte m a := by
  rw [readByte_writeBytes_other, readByte_clearProgram, if_pos ha]
  intro k hk
  rw [maskAddr_progBase_add (by omega)]
  omega

theorem readByte_load_program (m : Memory) {bs : List Byte} (hlen : bs.length ≤ 3584) {k : Nat} (hk : k < 3584) :
    readByte (writeBytes (clearProgram m) progBase bs) (512 + k) = bs.getD k 0x00#8 := by
  by_cases hin : k < bs.length
  · rw [← maskAddr_progBase_add hk, readByte_writeBytes_at _ _ _ (by omega) k hin, List.getD_eq_getElem _ _ hin]
  · rw [readByte_writeBytes_other, readByte_clearProgram, if_neg (by omega), initialByte_program _ (by omega),
      List.getD_eq_default _ _ (by omega)]
    intro j hj
    rw [maskAddr_progBase_add (by omega)]
    omega

end Sys2Proof.Machine

open Sys2Proof Sys2Proof.Machine

/-- Settles O54: the tick is the sleep, the initialisation, the audio evaluation with the timer at 0, and the grant with the
anchor at this instant; an instruction step leaves the controls. -/
theorem tickConsumesAReset : Obligations.TickConsumesAReset := by
  unfold Obligations.TickConsumesAReset
  refine ⟨fun s t hturn hd hr h => ?_, fun s t hturn h => ?_⟩
  · rw [step_of_tick hturn, tick_of_reset (s := s.popHost) hd hr] at h
    obtain rfl := Host.Outcome.next.inj h
    have hlevel : s.popHost.sleepTick.performReset.audioLevel = false := audioLevel_of_zero rfl
    have hbudget : s.popHost.sleepTick.performReset.evalAudio.gatedBudget = 0 := gatedBudget_of_anchor_now rfl
    refine ⟨getV_of_zeroed rfl, rfl, rfl, stack_of_zeroed rfl, rfl, rfl, delayTimer_of_zero rfl, soundTimer_of_zero rfl,
      fun a _ => readByte_of_initial rfl a, pixel_of_off rfl, keyDown_of_released rfl, rfl, rfl,
      fetchWord_of_initial rfl rfl, hlevel, ?_, rfl, hbudget, ?_, tickSleep_le_sleepTick s.popHost, rfl, rfl, rfl, rfl, rfl,
      rfl⟩
    · rw [State.grantBudget_audioEdge, State.evalAudio_audioEdge, hlevel, edgeBetween_false_right]
      rfl
    · rw [State.grantBudget_lastInstrTick, hbudget]
      rfl
  · rw [step_of_instr hturn] at h
    exact (instrStep_sameControls h).resetPending

/-- Settles O55: the tick is the sleep, the audio evaluation and the grant of the gated budget. -/
theorem tickEvaluatesAudioAndBudget : Obligations.TickEvaluatesAudioAndBudget := by
  unfold Obligations.TickEvaluatesAudioAndBudget
  intro s t hturn hd hr h
  have hsame : SameProgramState s s.popHost.tick := (popHost_sameProgramState s).trans (tick_sameProgramState hr)
  rw [step_of_tick hturn] at h
  obtain rfl := Host.Outcome.next.inj h
  refine ⟨hsame, ?_⟩
  rw [tick_of_no_reset (s := s.popHost) hd hr]
  refine ⟨tickSleep_le_sleepTick s.popHost, audioLevel_eq_true_iff s.popHost.sleepTick, edgeBetween_eq_start_iff _ _,
    edgeBetween_eq_stop_iff _ _, fun hen => ⟨?_, ?_⟩, fun hen => ⟨?_, fun hreq => ?_, fun hreq => ?_⟩, rfl⟩
  · exact gatedBudget_free (s := s.popHost.sleepTick.evalAudio) hen
  · exact if_neg (by simp [hen])
  · exact if_pos hen
  · exact (gatedBudget_requested (s := s.popHost.sleepTick.evalAudio) hen hreq).trans (Nat.min_comm _ _)
  · exact gatedBudget_unrequested (s := s.popHost.sleepTick.evalAudio) hen hreq

/-- Settles O57: the move at the head of the queue is the step; over every step the controls change as in `ControlStep`. -/
theorem hostMovesSetTheControls : Obligations.HostMovesSetTheControls := by
  unfold Obligations.HostMovesSetTheControls
  refine ⟨fun s => ⟨fun h => step_of_head h nofun, fun on h => step_of_head h nofun, fun h => step_of_head h nofun,
    fun h => step_of_head h nofun, fun h hr => ?_, fun h hr => ?_⟩, fun s t h => ?_⟩
  · refine ⟨s.popHost.sampleNow.now, now_le_sampleNow s.popHost, ?_⟩
    rw [step_of_head h nofun, State.hostMove, start_of_idle (s := s.popHost) hr]
    rfl
  · rw [step_of_head h nofun, State.hostMove, start_of_running (s := s.popHost) hr]
    rfl
  · obtain ⟨hrun, hshut, hen, hreq, hreset⟩ := controlStep_step h
    exact ⟨hrun, hshut, hen, hreq, hreset⟩

/-- Settles O58: a stream that fits is written over the cleared program region, and any other only answers failure. -/
theorem programLoad : Obligations.ProgramLoad := by
  unfold Obligations.ProgramLoad
  refine fun s stream => ⟨?_, ?_⟩
  · rintro bs rfl hlen
    refine ⟨_, load_of_fits hlen, fun a ha => readByte_load_below _ hlen ha, fun a hlow hhigh => ?_⟩
    obtain ⟨k, rfl⟩ := Nat.exists_eq_add_of_le hlow
    rw [readByte_load_program _ hlen (by omega), Nat.add_sub_cancel_left]
  · rintro (rfl | ⟨bs, rfl, hlen⟩)
    · rfl
    · exact load_of_too_long hlen

/-- Settles O59: the rate set is the clamped one. -/
theorem clockRateIsClamped : Obligations.ClockRateIsClamped := by
  unfold Obligations.ClockRateIsClamped
  intro s hz
  obtain ⟨hlow, hhigh⟩ := clampClock_bounds hz
  refine ⟨clampClock hz, rfl, hlow, hhigh, ?_⟩
  unfold clampClock at *
  omega
end

section
/-! Memory: the fetch, reading after writing, the canonical form, and the stores and loads at `I` (spec/20_memory.md R30 to R39,
spec/43_address_memory.md R98 to R100). -/

namespace Sys2Proof.Machine

variable {s : State}

/-! ### Reading after writing -/

theorem readByte_writeBytes_mod (m : Memory) (a : Word) {bs : List Byte} (hlen : bs.length ≤ 4096) {k : Nat}
    (hk : k < bs.length) : readByte (writeBytes m a bs) ((a.toNat + k) % 4096) = bs[k] := by
  rw [← maskAddr_add, readByte_writeBytes_at m a bs hlen k hk]

theorem memRead_memWrite_single (s : State) (a b : Word) (v : Byte) :
    (s.memWrite a [v]).memRead b = if a.toNat % 4096 = b.toNat % 4096 then v else s.memRead b := by
  simp only [State.memRead, State.memWrite_mem, writeBytes, readByte_writeByte, maskAddr,
    eq_comm (a := b.toNat % 4096)]

/-- The fetch by the number of `PC`: both addresses are masked (R31). -/
theorem fetchWord_eq (s : State) : s.fetchWord =
    readByte s.mem (s.pc.toNat % 4096) ++ readByte s.mem ((s.pc.toNat + 1) % 4096) := by
  have hlow : maskAddr (s.pc + 1#16) = (s.pc.toNat + 1) % 4096 := maskAddr_add s.pc 1
  rw [State.fetchWord, State.memRead, State.memRead, hlow]
  rfl

/-! ### The canonical form -/

theorem readByte_of_not_listed {m : Memory} {a : Nat} (h : ∀ c ∈ m, c.1 ≠ a) : readByte m a = initialByte a := by
  induction m with
  | nil => rfl
  | cons c rest ih =>
    rw [readByte, if_neg (h c List.mem_cons_self), ih fun d hd => h d (List.mem_cons_of_mem c hd)]

theorem readByte_head (c : Host.Cell) (m : Memory) : readByte (c :: m) c.1 = c.2 := if_pos rfl

theorem wf_tail {c : Host.Cell} {m : Memory} (h : Memory.wf (c :: m)) : Memory.wf m :=
  ⟨h.1.tail, fun d hd => h.2 d (List.mem_cons_of_mem c hd)⟩

theorem lt_of_wf_cons {c d : Host.Cell} {m : Memory} (h : Memory.wf (c :: m)) (hd : d ∈ m) : c.1 < d.1 :=
  List.rel_of_pairwise_cons h.1 hd

/-- A listed cell never reads as the initial contents, so no address below the first listed one distinguishes memories. -/
theorem head_le_of_reads {c d : Host.Cell} {m n : Memory} (hm : Memory.wf (c :: m)) (hn : Memory.wf (d :: n))
    (h : ∀ a, readByte (c :: m) a = readByte (d :: n) a) : d.1 ≤ c.1 := by
  by_contra hlt
  have hnot : ∀ e ∈ d :: n, e.1 ≠ c.1 := by
    intro e he
    rcases List.mem_cons.mp he with rfl | he
    · omega
    · have := lt_of_wf_cons hn he
      omega
  have hread := h c.1
  rw [readByte_head, readByte_of_not_listed hnot] at hread
  exact (hm.2 c List.mem_cons_self).2 hread

theorem tail_reads {c : Host.Cell} {m n : Memory} (hm : Memory.wf (c :: m)) (hn : Memory.wf (c :: n))
    (h : ∀ a, readByte (c :: m) a = readByte (c :: n) a) (a : Nat) : readByte m a = readByte n a := by
  by_cases ha : c.1 = a
  · subst ha
    rw [readByte_of_not_listed fun d hd => (lt_of_wf_cons hm hd).ne',
      readByte_of_not_listed fun d hd => (lt_of_wf_cons hn hd).ne']
  · simpa only [readByte, if_neg ha] using h a

theorem not_reads_initial {c : Host.Cell} {m : Memory} (hm : Memory.wf (c :: m)) :
    ¬ ∀ a, readByte (c :: m) a = readByte [] a := by
  intro h
  have hread := h c.1
  rw [readByte_head] at hread
  exact (hm.2 c List.mem_cons_self).2 hread

theorem memory_ext {m n : Memory} (hm : Memory.wf m) (hn : Memory.wf n) (h : ∀ a, readByte m a = readByte n a) : m = n := by
  induction m generalizing n with
  | nil =>
    cases n with
    | nil => rfl
    | cons d n => exact absurd (fun a => (h a).symm) (not_reads_initial hn)
  | cons c m ih =>
    cases n with
    | nil => exact absurd h (not_reads_initial hm)
    | cons d n =>
      have haddr : c.1 = d.1 := le_antisymm (head_le_of_reads hn hm fun a => (h a).symm) (head_le_of_reads hm hn h)
      have hbyte : c.2 = d.2 := by
        have hread := h c.1
        rwa [readByte_head, haddr, readByte_head] at hread
      obtain rfl : c = d := Prod.ext haddr hbyte
      rw [ih (wf_tail hm) (wf_tail hn) (tail_reads hm hn h)]

/-! ### The bytes stored -/

theorem regRange_getElem (s : State) (x r : Reg) (h : r.toNat < (s.regRange x).length) :
    (s.regRange x)[r.toNat] = s.getV r := by
  simp only [State.regRange, List.getElem_take, Vector.getElem_toList, State.getV]

theorem readByte_memWrite_regRange (s : State) {x r : Reg} (h : r.toNat ≤ x.toNat) :
    readByte (writeBytes s.mem s.i (s.regRange x)) ((s.i.toNat + r.toNat) % 4096) = s.getV r := by
  have hx : x.toNat < 2 ^ 4 := x.isLt
  have hlen := regRange_length s x
  have hr : r.toNat < (s.regRange x).length := by omega
  rw [readByte_writeBytes_mod _ _ (by omega) hr, regRange_getElem s x r hr]

theorem readByte_memWrite_bcd (s : State) (b : Byte) {k : Nat} (hk : k < 3) :
    readByte (writeBytes s.mem s.i (bcdDigits b)) ((s.i.toNat + k) % 4096) = (bcdDigits b)[k]'hk :=
  readByte_writeBytes_mod _ _ (show (bcdDigits b).length ≤ 4096 from (by decide : 3 ≤ 4096)) hk

theorem bcdDigits_toNat (b : Byte) : (bcdDigits b).map BitVec.toNat = [b.toNat / 100, b.toNat / 10 % 10, b.toNat % 10] := by
  have := b.isLt
  simp only [bcdDigits, List.map_cons, List.map_nil, BitVec.toNat_ofNat, List.cons.injEq, and_true]
  omega

theorem readByte_memWrite_bcd_toNat (s : State) (b : Byte) {k : Nat} (hk : k < 3) :
    (readByte (writeBytes s.mem s.i (bcdDigits b)) ((s.i.toNat + k) % 4096)).toNat =
      [b.toNat / 100, b.toNat / 10 % 10, b.toNat % 10][k]'hk := by
  rw [readByte_memWrite_bcd s b hk]
  simp only [← bcdDigits_toNat, List.getElem_map]
  rfl

/-! ### The store and load instructions -/

theorem exec_ldB (x : Reg) (s : State) :
    exec (.ldB x) s = .next (((s.memWrite s.i (bcdDigits (s.getV x))).setPc (s.pc + 2#16)).ended .executed) := rfl

theorem exec_storeRegs (x : Reg) (s : State) :
    exec (.storeRegs x) s = .next (((s.memWrite s.i (s.regRange x)).setPc (s.pc + 2#16)).ended .executed) := rfl

theorem exec_loadRegs (x : Reg) (s : State) :
    exec (.loadRegs x) s = .next (((s.loadFirst (x.toNat + 1)).setPc (s.pc + 2#16)).ended .executed) := by
  rw [exec, execLoadRegs, straight, loadFirst_pc, finish]

theorem getV_exec_loadRegs {x : Reg} {w : State} (h : exec (.loadRegs x) s = .next w) (r : Reg) :
    w.getV r = if r.toNat ≤ x.toNat then readByte s.mem ((s.i.toNat + r.toNat) % 4096) else s.getV r := by
  rw [exec_loadRegs] at h
  obtain rfl := Host.Outcome.next.inj h
  have hv := getV_loadFirst s (x.toNat + 1) x.isLt r
  simp only [Nat.lt_succ_iff, dataByte_eq] at hv
  exact hv

/-- The next fetch after two bytes were stored at its address. -/
theorem fetchWord_of_stored {t : State} {b0 b1 : Byte} {p : Nat} (hpc : t.pc.toNat % 4096 = p % 4096)
    (h0 : readByte t.mem (p % 4096) = b0) (h1 : readByte t.mem ((p + 1) % 4096) = b1) : t.fetchWord = b0 ++ b1 := by
  have hnext : (t.pc.toNat + 1) % 4096 = (p + 1) % 4096 := by omega
  rw [fetchWord_eq, hpc, hnext, h0, h1]

theorem toNat_add_two_mod (a : Word) : (a + 2#16).toNat % 4096 = (a.toNat + 2) % 4096 := maskAddr_add a 2

end Sys2Proof.Machine

open Sys2Proof Sys2Proof.Machine

/-- Settles O7: two bytes are encoded, and the two bytes fetched are decoded as one word. -/
theorem fetchReadsTwoBytesHighFirst : Obligations.FetchReadsTwoBytesHighFirst := by
  unfold Obligations.FetchReadsTwoBytesHighFirst
  exact ⟨fun _ => rfl, fun s => by rw [fetchDecode_eq, fetchWord_eq]⟩

/-- Settles O13: one byte by the masked address, a run by each of its masked addresses, which differ from each other. -/
theorem memoryReadAfterWrite : Obligations.MemoryReadAfterWrite := by
  unfold Obligations.MemoryReadAfterWrite
  refine ⟨memRead_memWrite_single, fun m a bs hlen => ⟨fun k hk => readByte_writeBytes_mod m a hlen hk, fun x hx => ?_⟩⟩
  refine readByte_writeBytes_other m a bs x fun k hk => ?_
  rw [maskAddr_add]
  exact hx k hk

/-- Settles O14: by induction, the first listed cells agree and the rest reads alike. -/
theorem equalReadsMeanEqualMemory : Obligations.EqualReadsMeanEqualMemory := by
  unfold Obligations.EqualReadsMeanEqualMemory
  exact fun _ _ => memory_ext

/-- Settles O15: the two bytes at the next instruction's address are two neighbours of the run stored. -/
theorem storeIsSeenByTheNextFetch : Obligations.StoreIsSeenByTheNextFetch := by
  unfold Obligations.StoreIsSeenByTheNextFetch
  refine ⟨fun x j s hj haddr => ?_, fun x s => ⟨fun haddr => ?_, fun haddr => ?_⟩⟩
  · have hx : x.toNat < 2 ^ 4 := x.isLt
    have hj1 : (j + 1#4).toNat = j.toNat + 1 := by
      rw [BitVec.toNat_add]
      exact Nat.mod_eq_of_lt (by omega : j.toNat + 1 < 2 ^ 4)
    refine ⟨_, exec_storeRegs x s, rfl, rfl, ?_⟩
    refine fetchWord_of_stored (p := s.i.toNat + j.toNat) ((toNat_add_two_mod s.pc).trans haddr.symm)
      (readByte_memWrite_regRange s hj.le) ?_
    have hnext := readByte_memWrite_regRange s (x := x) (r := j + 1#4) (by omega)
    rwa [hj1, ← Nat.add_assoc] at hnext
  · refine ⟨_, exec_ldB x s, rfl, rfl, ?_⟩
    rw [fetchWord_of_stored (p := s.i.toNat) ((toNat_add_two_mod s.pc).trans haddr.symm) rfl rfl, toNat_append_bytes]
    exact congrArg₂ (256 * · + ·) (readByte_memWrite_bcd_toNat s _ (k := 0) (by decide))
      (readByte_memWrite_bcd_toNat s _ (k := 1) (by decide))
  · refine ⟨_, exec_ldB x s, rfl, rfl, ?_⟩
    rw [fetchWord_of_stored (p := s.i.toNat + 1) ((toNat_add_two_mod s.pc).trans haddr.symm) rfl rfl, toNat_append_bytes]
    exact congrArg₂ (256 * · + ·) (readByte_memWrite_bcd_toNat s _ (k := 1) (by decide))
      (readByte_memWrite_bcd_toNat s _ (k := 2) (by decide))

/-- Settles O34: the three digits are the run stored. -/
theorem storeBcdDigits : Obligations.StoreBcdDigits := by
  unfold Obligations.StoreBcdDigits
  intro x s
  exact ⟨_, exec_ldB x s, rfl, rfl, readByte_memWrite_bcd_toNat s _ (k := 0) (by decide),
    readByte_memWrite_bcd_toNat s _ (k := 1) (by decide), readByte_memWrite_bcd_toNat s _ (k := 2) (by decide)⟩

/-- Settles O35: the registers from 0 to `x` are the run stored. -/
theorem storeRegisters : Obligations.StoreRegisters := by
  unfold Obligations.StoreRegisters
  exact fun x s => ⟨_, exec_storeRegs x s, rfl, rfl, fun _ hr => readByte_memWrite_regRange s hr⟩

/-- Settles O36: the bulk load reads each byte before any register above it is written. -/
theorem loadRegisters : Obligations.LoadRegisters := by
  unfold Obligations.LoadRegisters
  intro x s
  refine ⟨_, exec_loadRegs x s, rfl, ?_, getV_exec_loadRegs (exec_loadRegs x s)⟩
  rw [loadFirst_eq]
  rfl

/-- Settles O37: the load reads the addresses the store has written. -/
theorem storeThenLoadRestoresRegisters : Obligations.StoreThenLoadRestoresRegisters := by
  unfold Obligations.StoreThenLoadRestoresRegisters
  intro x s t u hst hmem hi
  rw [exec_storeRegs] at hst
  obtain rfl := Host.Outcome.next.inj hst
  refine ⟨_, exec_loadRegs x u, fun r hr => ?_⟩
  rw [getV_exec_loadRegs (exec_loadRegs x u), if_pos hr, hmem, hi]
  exact readByte_memWrite_regRange s hr
end

section
/-! Control transfer and skips (spec/41_control_flow.md R70 to R78, spec/45_keypad_timers.md R110, R111). -/

namespace Sys2Proof.Machine

variable {s : State}

theorem addrOperand_toNat (nnn : Addr12) : (addrOperand nnn).toNat = nnn.toNat := by
  have := nnn.isLt
  rw [addrOperand, BitVec.toNat_setWidth]
  omega

theorem wideV_toNat (s : State) (x : Reg) : (s.wideV x).toNat = (s.getV x).toNat := by
  have := (s.getV x).isLt
  rw [State.wideV, BitVec.toNat_setWidth]
  omega

theorem exec_ret_pop (h : s.sp ≠ 0x00#8) : exec .ret s = .next (s.pop.ended .executed) := by
  rw [exec, execRet, if_neg h, finish]

theorem exec_call (nnn : Addr12) (s : State) :
    exec (.call nnn) s = .next (((s.push (s.pc + 2#16)).setPc (addrOperand nnn)).ended .executed) := rfl

theorem push_stack (s : State) (a : Word) (k : Nat) (hk : k < 16) :
    (s.push a).stack[k] = if k = (s.sp.toNat + 1) % 16 then a else s.stack[k] := by
  have hslot : stackSlot (s.sp + 1#8) = (s.sp.toNat + 1) % 16 := by
    simp only [stackSlot, BitVec.toNat_add, BitVec.toNat_ofNat]
    omega
  simp only [State.push, Vector.getElem_set, hslot, eq_comm (b := k)]

/-- A skip answers a next state that has skipped exactly if the condition holds. -/
theorem skipIf_answers (s : State) (c : Bool) {p : Prop} [Decidable p] (h : c = true ↔ p) :
    ∃ t, skipIf c s = .next t ∧ t.outcome = some .executed ∧ t.pc = if p then s.pc + 4#16 else s.pc + 2#16 := by
  refine ⟨_, rfl, rfl, ?_⟩
  simp only [State.ended_pc, State.setPc_pc, h]
  split <;> rfl

end Sys2Proof.Machine

open Sys2Proof Sys2Proof.Machine

/-- Settles O22: by whether the stack is empty. -/
theorem retPopsOrChangesNothing : Obligations.RetPopsOrChangesNothing := by
  unfold Obligations.RetPopsOrChangesNothing
  intro s
  by_cases hsp : s.sp = 0x00#8
  · exact ⟨_, exec_ret_empty hsp, rfl, rfl, fun h => absurd hsp h, fun _ => ended_sameProgramState s _⟩
  · refine ⟨_, exec_ret_pop hsp, rfl, rfl, fun _ => ⟨rfl, ?_⟩, fun h => absurd h hsp⟩
    have hpos : s.sp.toNat ≠ 0 := fun h => hsp (BitVec.eq_of_toNat_eq h)
    have := s.sp.isLt
    simp only [State.ended_sp, State.pop_sp, BitVec.toNat_sub, BitVec.toNat_ofNat]
    omega

/-- Settles O23: the 12 bits of `nnn` are widened, and the sum with a byte fits 16 bits. -/
theorem jumpsSetTheProgramCounter : Obligations.JumpsSetTheProgramCounter := by
  unfold Obligations.JumpsSetTheProgramCounter
  refine fun nnn s => ⟨⟨_, rfl, addrOperand_toNat nnn, rfl⟩, ⟨_, rfl, ?_, rfl⟩⟩
  have := nnn.isLt
  have := (s.getV 0x0#4).isLt
  simp only [State.ended_pc, State.setPc_pc, BitVec.toNat_add, addrOperand_toNat, wideV_toNat]
  omega

/-- Settles O24: `SP` counts modulo 256, and the push writes one slot. -/
theorem callPushesTheReturnAddress : Obligations.CallPushesTheReturnAddress := by
  unfold Obligations.CallPushesTheReturnAddress
  exact fun nnn s => ⟨_, exec_call nnn s, rfl, addrOperand_toNat nnn, BitVec.toNat_add _ _, push_stack s _⟩

/-- Settles O25: the return finds what the call pushed, unless the call has wrapped `SP` to 0. -/
theorem callThenReturn : Obligations.CallThenReturn := by
  unfold Obligations.CallThenReturn
  intro nnn s t h
  rw [exec_call] at h
  obtain rfl := Host.Outcome.next.inj h
  have hwrap : s.sp + 1#8 = 0x00#8 ↔ s.sp = 0xFF#8 := by bv_omega
  by_cases hsp : s.sp = 0xFF#8
  · exact ⟨_, exec_ret_empty (hwrap.mpr hsp), fun h => absurd hsp h, fun _ => ended_sameProgramState _ _⟩
  · refine ⟨_, exec_ret_pop fun h => hsp (hwrap.mp h), fun _ => ⟨stackTop_push s _, ?_⟩, fun h => absurd h hsp⟩
    exact BitVec.add_sub_cancel s.sp 1#8

/-- Settles O26: each skip by its condition. -/
theorem skipsOnEquality : Obligations.SkipsOnEquality := by
  unfold Obligations.SkipsOnEquality
  exact fun x y kk s => ⟨skipIf_answers s _ beq_iff_eq, skipIf_answers s _ bne_iff_ne, skipIf_answers s _ beq_iff_eq,
    skipIf_answers s _ bne_iff_ne⟩

/-- Settles O41: the low 4 bits are the key's index, and each skip goes by this step's sample. -/
theorem skipsOnAKey : Obligations.SkipsOnAKey := by
  unfold Obligations.SkipsOnAKey
  intro x s k hk
  have hindex : s.keyIndex x = k := BitVec.eq_of_toNat_eq ((BitVec.toNat_setWidth _ _).trans hk.symm)
  subst hindex
  exact ⟨skipIf_answers s _ Iff.rfl, skipIf_answers s _ (by rw [Bool.not_eq_true'])⟩
end

section
/-! Loads, arithmetic, the flag, the address register, and the instructions that store a key or a timer (spec/42_load_alu.md R80 to
R92, spec/43_address_memory.md R95 to R97, spec/45_keypad_timers.md R112, R113). -/

namespace Sys2Proof.Machine

/-! ### Straight-line instructions that write a register -/

theorem straight_setV_answers (s : State) (x : Reg) (b : Byte) :
    ∃ t, straight (s.setV x b) = .next t ∧ t.pc = s.pc + 2#16 ∧ ∀ r, t.getV r = if r = x then b else s.getV r :=
  ⟨_, rfl, rfl, fun r => getV_setV s x r b⟩

theorem straight_setFlagThenV_answers (s : State) (x : Reg) (f b : Byte) :
    ∃ t, straight (s.setFlagThenV x f b) = .next t ∧ t.pc = s.pc + 2#16 ∧
      ∀ r, (t.getV r).toNat = if r = x then b.toNat else if r = 0xF#4 then f.toNat else (s.getV r).toNat := by
  refine ⟨_, rfl, rfl, fun r => ?_⟩
  rw [← apply_ite BitVec.toNat, ← apply_ite BitVec.toNat]
  exact congrArg BitVec.toNat (getV_setFlagThenV s x r f b)

/-! ### Flags and results as numbers -/

theorem carryFlag_toNat (a b : Byte) : (carryFlag a b).toNat = if 255 < a.toNat + b.toNat then 1 else 0 := by
  simp only [carryFlag, flagByte_toNat, decide_eq_true_eq]

theorem borrowFlag_toNat (a b : Byte) : (borrowFlag a b).toNat = if b.toNat < a.toNat then 1 else 0 := by
  simp only [borrowFlag, flagByte_toNat, decide_eq_true_eq]

theorem sub_toNat (a b : Byte) : (a - b).toNat = (256 + a.toNat - b.toNat) % 256 := by
  have := b.isLt
  rw [BitVec.toNat_sub]
  omega

theorem shrFlag_toNat (a : Byte) : (shrFlag a).toNat = a.toNat % 2 := by
  rw [shrFlag, flagByte_toNat, BitVec.getLsbD, Nat.testBit_zero]
  simp only [decide_eq_true_eq]
  split <;> omega

theorem shlFlag_toNat (a : Byte) : (shlFlag a).toNat = a.toNat / 128 := by
  have := a.isLt
  rw [shlFlag, flagByte_toNat, BitVec.getLsbD, Nat.testBit_eq_decide_div_mod_eq]
  simp only [decide_eq_true_eq]
  split <;> omega

theorem ushiftRight_one_toNat (a : Byte) : (a >>> 1).toNat = a.toNat / 2 := by
  rw [BitVec.toNat_ushiftRight, Nat.shiftRight_one]

theorem shiftLeft_one_toNat (a : Byte) : (a <<< 1).toNat = a.toNat * 2 % 256 := by
  rw [BitVec.toNat_shiftLeft, Nat.shiftLeft_eq]

theorem fontAddr_toNat (s : State) (x : Reg) : (s.fontAddr x).toNat = 0x100 + 5 * (s.getV x).toNat := by
  have := (s.getV x).isLt
  simp only [State.fontAddr, fontBase, glyphBytes, BitVec.toNat_ofNat]
  omega

end Sys2Proof.Machine

open Sys2Proof Sys2Proof.Machine

/-- Settles O27: each writes one register. -/
theorem loadsAndImmediateAdd : Obligations.LoadsAndImmediateAdd := by
  unfold Obligations.LoadsAndImmediateAdd
  refine fun x y kk s => ⟨straight_setV_answers s x kk, ?_, straight_setV_answers s x (s.getV y)⟩
  obtain ⟨t, ht, hpc, hv⟩ := straight_setV_answers s x (s.getV x + kk)
  refine ⟨t, ht, hpc, fun r => ?_⟩
  rw [hv, apply_ite BitVec.toNat, BitVec.toNat_add]

/-- Settles O28: each writes one register, bit by bit. -/
theorem bitwiseOperations : Obligations.BitwiseOperations := by
  unfold Obligations.BitwiseOperations
  intro x y s
  refine ⟨?_, ?_, ?_⟩
  · obtain ⟨t, ht, hpc, hv⟩ := straight_setV_answers s x (s.getV x ||| s.getV y)
    refine ⟨t, ht, hpc, fun r hr => by rw [hv, if_neg hr], fun j _ => ?_⟩
    rw [hv, if_pos rfl, BitVec.getLsbD_or]
  · obtain ⟨t, ht, hpc, hv⟩ := straight_setV_answers s x (s.getV x &&& s.getV y)
    refine ⟨t, ht, hpc, fun r hr => by rw [hv, if_neg hr], fun j _ => ?_⟩
    rw [hv, if_pos rfl, BitVec.getLsbD_and]
  · obtain ⟨t, ht, hpc, hv⟩ := straight_setV_answers s x (s.getV x ^^^ s.getV y)
    refine ⟨t, ht, hpc, fun r hr => by rw [hv, if_neg hr], fun j _ => ?_⟩
    rw [hv, if_pos rfl, BitVec.getLsbD_xor]

/-- Settles O29: sum and carry of the old registers, the result written last. -/
theorem addRegisters : Obligations.AddRegisters := by
  unfold Obligations.AddRegisters
  intro x y s
  rw [← carryFlag_toNat, ← BitVec.toNat_add]
  exact straight_setFlagThenV_answers s x _ _

/-- Settles O30: difference and strict flag of the old registers, the result written last. -/
theorem subtractRegisters : Obligations.SubtractRegisters := by
  unfold Obligations.SubtractRegisters
  intro x y s
  rw [← borrowFlag_toNat, ← borrowFlag_toNat, ← sub_toNat, ← sub_toNat]
  exact ⟨straight_setFlagThenV_answers s x _ _, straight_setFlagThenV_answers s x _ _⟩

/-- Settles O31: the operand is `shiftOperand`, under either setting of the flag. -/
theorem shiftsByOne : Obligations.ShiftsByOne := by
  unfold Obligations.ShiftsByOne
  rintro x y s a rfl
  rw [← ushiftRight_one_toNat, ← shrFlag_toNat, ← shiftLeft_one_toNat, ← shlFlag_toNat]
  exact ⟨straight_setFlagThenV_answers s x _ _, straight_setFlagThenV_answers s x _ _⟩

/-- Settles O32: `exec` reads the sample held, and a step of the machine has just drawn it. -/
theorem randomAndMask : Obligations.RandomAndMask := by
  unfold Obligations.RandomAndMask
  refine fun x kk s => ⟨?_, fun hturn hi => ?_⟩
  · obtain ⟨t, ht, hpc, hv⟩ := straight_setV_answers s x (s.rand &&& kk)
    refine ⟨t, ht, hpc, ?_, hv⟩
    rw [hv, if_pos rfl, BitVec.and_assoc, BitVec.and_not_self]
    exact BitVec.and_zero
  · obtain ⟨t, ht, -, hv⟩ := straight_setV_answers s.popHost.beginInstr x (s.popHost.beginInstr.rand &&& kk)
    have hexec : exec (.rnd x kk) s.popHost.beginInstr = .next t := ht
    rw [step_of_instr hturn, instrStep_of_ok ((fetchDecode_popHost s).trans hi), hexec]
    exact ⟨t.settle (some (.rnd x kk)), rfl, (hv x).trans (if_pos rfl)⟩

/-- Settles O33: the three values of `I` as numbers. -/
theorem addressRegisterWrites : Obligations.AddressRegisterWrites := by
  unfold Obligations.AddressRegisterWrites
  refine fun nnn x s => ⟨⟨_, rfl, rfl, addrOperand_toNat nnn⟩, ⟨_, rfl, rfl, ?_⟩, ⟨_, rfl, rfl, fontAddr_toNat s x⟩⟩
  simp only [State.ended_i, State.setPc_i, State.setI_i, BitVec.toNat_add, wideV_toNat]

/-- Settles O42: by the least pressed key, found or not. -/
theorem waitForKey : Obligations.WaitForKey := by
  unfold Obligations.WaitForKey
  intro x s
  refine ⟨s.afterWaitKey x, rfl, fun k hk hmin => ?_, fun hnone => ?_⟩
  · have hlow : s.lowestKey = some k := lowestKey_eq_some hk hmin
    have hv : ∀ r, (s.afterWaitKey x).getV r = if r = x then k.setWidth 8 else s.getV r := fun r => by
      rw [State.afterWaitKey, hlow]
      exact getV_setV s x r _
    refine ⟨?_, fun r hr => by rw [hv, if_neg hr], ?_⟩
    · have := k.isLt
      rw [hv, if_pos rfl, BitVec.toNat_setWidth]
      omega
    · rw [State.afterWaitKey, hlow]
      exact ⟨rfl, rfl, rfl⟩
  · have hlow : s.lowestKey = none := (lowestKey_eq_none_iff s).mpr hnone
    rw [State.afterWaitKey, hlow]
    exact ⟨ended_sameProgramState s _, rfl, rfl⟩

/-- Settles O43: one register receives the timer's value, and R126's formula gives it. -/
theorem readDelayTimer : Obligations.ReadDelayTimer := by
  unfold Obligations.ReadDelayTimer
  intro x s
  obtain ⟨t, ht, hpc, hv⟩ := straight_setV_answers s x s.delayTimer
  have hx : t.getV x = s.delayTimer := (hv x).trans (if_pos rfl)
  refine ⟨t, ht, hpc, straight_sameTimers (setV_sameTimers s _ _) ht, fun hle => ?_, fun hzero => ?_,
    fun r hr => (hv r).trans (if_neg hr)⟩
  · rw [hx]
    exact timerValue_eq_max s.dtSet hle
  · rw [hx, delayTimer_of_zero hzero]
end

section
/-! The display: clearing and drawing (spec/44_display.md R105, R106). -/

namespace Sys2Proof

/-- The whole word is matched: what decodes to `CLS` has its word. -/
theorem decodeWord_eq_cls_iff (w : Word) : decodeWord w = .ok .cls ↔ w = 0x00E0#16 := by
  constructor
  · intro h
    obtain ⟨-, hw⟩ := readingOf_decodeWord h
    exact hw.symm
  · rintro rfl
    rfl

namespace Machine

open Classical in
/-- A sprite has at most 15 rows, and it covers what `spriteCovers` says. -/
theorem drawSprite_spec (s : State) (x y : Reg) (n : Nibble) :
    (∀ cx cy, pixel (s.drawSprite x y n).1 cx cy = (pixel s.disp cx cy ^^ decide (s.spriteCovers x y n cx cy))) ∧
    ((s.drawSprite x y n).2 = true ↔ ∃ cx cy, s.spriteCovers x y n cx cy ∧ pixel s.disp cx cy = true) := by
  have hcover : ∀ cx cy, s.RowsCover (s.getV x).toNat (s.getV y).toNat n.toNat cx cy ↔ s.spriteCovers x y n cx cy := by
    intro cx cy
    constructor
    · rintro ⟨r, hr, c, hc, hbit, hx, hy⟩
      exact ⟨r, c, hr, hc, hbit, hx, hy⟩
    · rintro ⟨r, c, hr, hc, hbit, hx, hy⟩
      exact ⟨r, hr, c, hc, hbit, hx, hy⟩
  have hspec := drawRows_spec s (s.getV x).toNat (s.getV y).toNat n.toNat (n.isLt.le.trans (by decide))
  rw [State.drawSprite]
  simpa only [hcover] using hspec

theorem exec_drw (x y : Reg) (n : Nibble) (s : State) : exec (.drw x y n) s = .next
    ((((s.setDisp (s.drawSprite x y n).1).setV 0xF#4 (collisionFlag (s.drawSprite x y n).2)).setPc
      (s.pc + 2#16)).ended .executed) := rfl

theorem disp_exec_drw {x y : Reg} {n : Nibble} {s t : State} (h : exec (.drw x y n) s = .next t) :
    t.disp = (s.drawSprite x y n).1 := by
  rw [exec_drw] at h
  obtain rfl := Host.Outcome.next.inj h
  rfl

theorem getV_exec_drw {x y : Reg} {n : Nibble} {s t : State} (h : exec (.drw x y n) s = .next t) (r : Reg) :
    t.getV r = if r = 0xF#4 then collisionFlag (s.drawSprite x y n).2 else s.getV r := by
  rw [exec_drw] at h
  obtain rfl := Host.Outcome.next.inj h
  exact getV_setV _ _ _ _

/-- A draw leaves memory, `I` and every register but `VF`, so a second draw of the form finds the same sprite at the same
place. -/
theorem spriteCovers_exec_drw {x y : Reg} {n : Nibble} {s t : State} (hx : x ≠ 0xF#4) (hy : y ≠ 0xF#4)
    (h : exec (.drw x y n) s = .next t) (cx : Fin 64) (cy : Fin 32) :
    t.spriteCovers x y n cx cy ↔ s.spriteCovers x y n cx cy := by
  have hdata : ∀ k, t.dataByte k = s.dataByte k := by
    rw [exec_drw] at h
    obtain rfl := Host.Outcome.next.inj h
    exact fun _ => rfl
  simp only [State.spriteCovers, hdata, getV_exec_drw h, if_neg hx, if_neg hy]

end Machine
end Sys2Proof

open Sys2Proof Sys2Proof.Machine

/-- Settles O38: what decodes to `CLS` has its word, and the display becomes `Display.off`. -/
theorem clearScreen : Obligations.ClearScreen := by
  unfold Obligations.ClearScreen
  exact ⟨decodeWord_eq_cls_iff, fun _ => ⟨_, rfl, rfl, rfl, pixel_off⟩⟩

/-- Settles O39: the sprite XORs the pixels it covers, and the flag is the collision. -/
theorem drawSpriteXors : Obligations.DrawSpriteXors := by
  unfold Obligations.DrawSpriteXors
  intro x y n s
  classical
  obtain ⟨hpixel, hhit⟩ := drawSprite_spec s x y n
  have hflag := (getV_exec_drw (exec_drw x y n s) 0xF#4).trans (if_pos rfl)
  refine ⟨_, exec_drw x y n s, rfl, rfl, fun cx cy hc => ?_, fun cx cy hc => ?_, fun hc => ?_, fun hc => ?_⟩
  · exact (hpixel cx cy).trans (by rw [decide_eq_true hc, Bool.xor_true])
  · exact (hpixel cx cy).trans (by rw [decide_eq_false hc, Bool.xor_false])
  · rw [hflag, hhit.mpr hc]
    rfl
  · rw [hflag, Bool.eq_false_iff.mpr fun h => hc (hhit.mp h)]
    rfl

/-- Settles O40: the second draw covers the same pixels, and the XOR with the same bit twice is nothing. -/
theorem drawTwiceRestoresTheDisplay : Obligations.DrawTwiceRestoresTheDisplay := by
  unfold Obligations.DrawTwiceRestoresTheDisplay
  intro x y n s t u hx hy hst htu
  apply display_ext
  intro cx cy
  classical
  rw [disp_exec_drw htu, (drawSprite_spec t x y n).1, disp_exec_drw hst, (drawSprite_spec s x y n).1,
    decide_eq_decide.mpr (spriteCovers_exec_drw hx hy hst cx cy), Bool.xor_assoc, Bool.xor_self, Bool.xor_false]
end

section
/-! The timer over time: monotone, constant for 1/60 s, 0 from set/60 s on, and equal to a down-counter
(spec/60_exceptions.md R126). -/

namespace Sys2Proof.Machine

variable {set : Byte} {t0 t1 t2 : Instant}

theorem timerValue_antitone (h : t1 ≤ t2) : (timerValue set t0 t2).toNat ≤ (timerValue set t0 t1).toNat := by
  rw [timerValue_toNat, timerValue_toNat]
  exact Nat.sub_le_sub_left (Nat.floor_mono (by linarith)) _

theorem timerValue_le_set (set : Byte) (t0 t1 : Instant) : (timerValue set t0 t1).toNat ≤ set.toNat := by
  rw [timerValue_toNat]
  exact Nat.sub_le _ _

theorem floor_sixty_eq_zero_iff (t0 t1 : Instant) : ⌊60 * (t1 - t0)⌋₊ = 0 ↔ t1 - t0 < 1 / 60 := by
  rw [Nat.floor_eq_zero]
  constructor <;> intro h <;> linarith

theorem le_floor_sixty_iff (h : t0 ≤ t1) (k : Nat) : k ≤ ⌊60 * (t1 - t0)⌋₊ ↔ (k : Rat) / 60 ≤ t1 - t0 := by
  rw [Nat.le_floor_iff (by linarith)]
  constructor <;> intro h <;> linarith

theorem timerValue_eq_set_iff (set : Byte) (t0 t1 : Instant) :
    timerValue set t0 t1 = set ↔ t1 - t0 < 1 / 60 ∨ set = 0x00#8 := by
  rw [← BitVec.toNat_inj, timerValue_toNat, ← floor_sixty_eq_zero_iff, ← BitVec.toNat_inj (y := 0x00#8),
    show (0x00#8).toNat = 0 from rfl]
  omega

theorem timerValue_eq_zero_iff (set : Byte) (h : t0 ≤ t1) :
    timerValue set t0 t1 = 0x00#8 ↔ (set.toNat : Rat) / 60 ≤ t1 - t0 := by
  rw [← le_floor_sixty_iff h, ← BitVec.toNat_inj, timerValue_toNat]
  exact Nat.sub_eq_zero_iff_le

/-- One beat of the counter: down by one, stopping at 0. -/
def countDown (c : Byte) : Byte := if c = 0x00#8 then c else c - 1#8

theorem countDown_toNat (c : Byte) : (countDown c).toNat = c.toNat - 1 := by
  have := c.isLt
  unfold countDown
  split
  · next h => rw [h]; rfl
  · next h =>
    have hpos : c.toNat ≠ 0 := fun h0 => h (BitVec.eq_of_toNat_eq h0)
    rw [BitVec.toNat_sub, BitVec.toNat_ofNat]
    omega

theorem iterate_countDown_toNat (j : Nat) (c : Byte) : (countDown^[j] c).toNat = c.toNat - j := by
  induction j with
  | zero => rfl
  | succ j ih => rw [Function.iterate_succ_apply', countDown_toNat, ih, Nat.sub_sub]

theorem floor_sixty_eq {j : Nat} (hlow : (j : Rat) / 60 ≤ t1 - t0) (hhigh : t1 - t0 < ((j : Rat) + 1) / 60) :
    ⌊60 * (t1 - t0)⌋₊ = j := by
  have hj : (0 : Rat) ≤ j := Nat.cast_nonneg j
  rw [Nat.floor_eq_iff (by linarith)]
  constructor <;> linarith

end Sys2Proof.Machine

open Sys2Proof Sys2Proof.Machine

/-- Settles O46: each clause by the floor of sixty times the span. -/
theorem timerFallsToZeroOnTime : Obligations.TimerFallsToZeroOnTime := by
  unfold Obligations.TimerFallsToZeroOnTime
  exact fun set t0 t1 t2 h01 h12 => ⟨timerValue_antitone h12, timerValue_le_set set t0 t1,
    timerValue_eq_set_iff set t0 t1, timerValue_eq_zero_iff set h01⟩

/-- Settles O47: in that span the floor is `j`, and `j` beats of the counter subtract `j`. -/
theorem timerIsADownCounter : Obligations.TimerIsADownCounter := by
  unfold Obligations.TimerIsADownCounter
  intro set t0 t j hlow hhigh
  apply BitVec.eq_of_toNat_eq
  rw [timerValue_toNat, floor_sixty_eq hlow hhigh]
  exact (iterate_countDown_toNat j set).symm
end
